-- ==== Sys2Proof/Word.lean ====
section
/-! DEFINITION. The one word of the machine, the byte, and the wraparound law of its arithmetic
(rules R8 and R11 of 00_scope.md). -/

namespace Sys2Proof

/-- A byte: the width of every register, of `pc` and `sp`, and of every memory element (R6, R8). -/
abbrev Byte := BitVec 8

/-- `wrap8(n) = n mod 256`, for negative `n` too (R11). -/
def wrap8 (n : Int) : Byte := BitVec.ofInt 8 n

end Sys2Proof
end

