-- ==== Sys2Proof/Syntax.lean ====
section
/-! DEFINITION. The instructions of table G8-1 (rule R87 of 30_encoding.md), one constructor per
row, with the operand kinds of rule R84. An ignored low nibble (R89) is no operand. -/

namespace Sys2Proof

/-- Operand kinds `d` and `r`: a register index as the 4-bit field names it, `0..15` (R84). An index
at or above `NREGS` is a legal encoding whose execution faults (R91). -/
abbrev RegIdx := Fin 16

/-- Operand kind `s`: a BitField index of the flag register, `0..15`, all of them valid (R84). -/
abbrev FlagIdx := Fin 16

/-- Operand kind `b`: a register bit index as the 4-bit field names it, `0..15`; `8..15` is a legal
encoding whose execution faults (R84, R91). -/
abbrev BitIdx := Fin 16

/-- The 22 instructions of R87. -/
inductive Instr where
  | nop
  | add (d r : RegIdx)
  | adc (d r : RegIdx)
  | sub (d r : RegIdx)
  | sbc (d r : RegIdx)
  | and (d r : RegIdx)
  | asr (d : RegIdx)
  | bset (f : FlagIdx)
  | bclr (f : FlagIdx)
  | bst (d : RegIdx) (b : BitIdx)
  | bld (d : RegIdx) (b : BitIdx)
  | brbs (f : FlagIdx) (k : Byte)
  | brbc (f : FlagIdx) (k : Byte)
  | jmp (k : Byte)
  | call (k : Byte)
  | ret
  | ldi (d : RegIdx) (k : Byte)
  | mov (d r : RegIdx)
  | ld (d r : RegIdx)
  | st (d r : RegIdx)
  | push (r : RegIdx)
  | pop (d : RegIdx)
deriving DecidableEq, Repr

end Sys2Proof
end

