-- ==== Sys2Proof/Decode.lean ====
section
/-! DEFINITION. Table G8-1, its decoder and its encoder (30_encoding.md, rules R80 to R93). The
decoder reads the opcode byte first and only then the operand bytes its format asks for (R85); it
is written once over a source of bytes, so that the list decoder here and the machine's fetch are
the same function. -/

namespace Sys2Proof

/-! ## The opcode table -/

/-- The 22 rows of table G8-1 (R87). -/
inductive Opcode where
  | nop | add | adc | sub | sbc | and | asr
  | bset | bclr | bst | bld
  | brbs | brbc | jmp | call | ret
  | ldi | mov | ld | st | push | pop
deriving DecidableEq, Repr

/-- The four instruction formats (R81): no operands, nibble pair, constant, nibble pair and
constant. -/
inductive Format where
  | n | p | k | pk
deriving DecidableEq, Repr

/-- All rows, in the table's order. -/
def Opcode.all : List Opcode :=
  [.nop, .add, .adc, .sub, .sbc, .and, .asr] ++ [.bset, .bclr, .bst, .bld] ++
    [.brbs, .brbc, .jmp, .call, .ret] ++ [.ldi, .mov, .ld, .st, .push, .pop]

/-- The opcode value of a row (R87). -/
def Opcode.byte : Opcode → Byte
  | .nop => 0x00
  | .add => 0x10
  | .adc => 0x11
  | .sub => 0x12
  | .sbc => 0x13
  | .and => 0x14
  | .asr => 0x15
  | .bset => 0x20
  | .bclr => 0x21
  | .bst => 0x22
  | .bld => 0x23
  | .brbs => 0x30
  | .brbc => 0x31
  | .jmp => 0x32
  | .call => 0x33
  | .ret => 0x34
  | .ldi => 0x40
  | .mov => 0x41
  | .ld => 0x42
  | .st => 0x43
  | .push => 0x44
  | .pop => 0x45

/-- The mnemonic of a row (R87, R93). -/
def Opcode.mnemonic : Opcode → String
  | .nop => "NOP"
  | .add => "ADD"
  | .adc => "ADC"
  | .sub => "SUB"
  | .sbc => "SBC"
  | .and => "AND"
  | .asr => "ASR"
  | .bset => "BSET"
  | .bclr => "BCLR"
  | .bst => "BST"
  | .bld => "BLD"
  | .brbs => "BRBS"
  | .brbc => "BRBC"
  | .jmp => "JMP"
  | .call => "CALL"
  | .ret => "RET"
  | .ldi => "LDI"
  | .mov => "MOV"
  | .ld => "LD"
  | .st => "ST"
  | .push => "PUSH"
  | .pop => "POP"

/-- The format of a row (R87). -/
def Opcode.format : Opcode → Format
  | .nop => .n
  | .add => .p
  | .adc => .p
  | .sub => .p
  | .sbc => .p
  | .and => .p
  | .asr => .p
  | .bset => .p
  | .bclr => .p
  | .bst => .p
  | .bld => .p
  | .brbs => .pk
  | .brbc => .pk
  | .jmp => .k
  | .call => .k
  | .ret => .n
  | .ldi => .pk
  | .mov => .p
  | .ld => .p
  | .st => .p
  | .push => .p
  | .pop => .p

/-- The length in bytes of each format (R83). -/
def Format.len : Format → Nat
  | .n => 1
  | .p => 2
  | .k => 2
  | .pk => 3

/-- `len(opcode)`, a function of the opcode alone (R83). -/
def Opcode.len (o : Opcode) : Nat := o.format.len

/-- Lookup by opcode value (R93); none for the 234 illegal values of R88. -/
def Opcode.ofByte (b : Byte) : Option Opcode := Opcode.all.find? (fun o => o.byte == b)

/-- Lookup by mnemonic (R93). -/
def Opcode.ofMnemonic (m : String) : Option Opcode := Opcode.all.find? (fun o => o.mnemonic == m)

/-! ## Fields -/

/-- `v[7:4]`, the high nibble (R9, R82). -/
def hiNibble (v : Byte) : Fin 16 := ⟨v.toNat / 16, by omega⟩

/-- `v[3:0]`, the low nibble (R9, R82). -/
def loNibble (v : Byte) : Fin 16 := ⟨v.toNat % 16, by omega⟩

/-- The byte `hi : lo` (R9, R81). -/
def nibblePair (hi lo : Fin 16) : Byte := BitVec.ofNat 8 (hi.val * 16 + lo.val)

/-- The instruction of a row, given the fields `hi`, `lo` and `k` (R84, R87). A field the row does
not have, or ignores (R89), is not used. -/
def Opcode.build (o : Opcode) (hi lo : Fin 16) (k : Byte) : Instr :=
  match o with
  | .nop => .nop
  | .add => .add hi lo
  | .adc => .adc hi lo
  | .sub => .sub hi lo
  | .sbc => .sbc hi lo
  | .and => .and hi lo
  | .asr => .asr hi
  | .bset => .bset hi
  | .bclr => .bclr hi
  | .bst => .bst hi lo
  | .bld => .bld hi lo
  | .brbs => .brbs hi k
  | .brbc => .brbc hi k
  | .jmp => .jmp k
  | .call => .call k
  | .ret => .ret
  | .ldi => .ldi hi k
  | .mov => .mov hi lo
  | .ld => .ld hi lo
  | .st => .st hi lo
  | .push => .push hi
  | .pop => .pop hi

/-! ## The decoder -/

/-- Decoding over any source of bytes: `byteAt n` gives byte `n` of the instruction or an error. The
opcode byte is read first; an opcode with no table entry is rejected before any operand byte is
read (R85, R88). -/
def decodeFrom {ε : Type} (byteAt : Nat → Except ε Byte) (illegal : Byte → ε) : Except ε Instr :=
  match byteAt 0 with
  | .error e => .error e
  | .ok b0 =>
    match Opcode.ofByte b0 with
    | none => .error (illegal b0)
    | some o =>
      match o.format with
      | .n => .ok (o.build 0 0 0)
      | .p =>
        match byteAt 1 with
        | .error e => .error e
        | .ok b1 => .ok (o.build (hiNibble b1) (loNibble b1) 0)
      | .k =>
        match byteAt 1 with
        | .error e => .error e
        | .ok k => .ok (o.build 0 0 k)
      | .pk =>
        match byteAt 1 with
        | .error e => .error e
        | .ok b1 =>
          match byteAt 2 with
          | .error e => .error e
          | .ok k => .ok (o.build (hiNibble b1) (loNibble b1) k)

/-- Why a list of bytes is no instruction. -/
inductive DecodeError where
  /-- The first byte has no table entry (R88). -/
  | illegalOpcode (op : Byte)
  /-- The list ends before the instruction does. -/
  | truncated
deriving DecidableEq, Repr

/-- The row an instruction belongs to. -/
def Instr.opcode : Instr → Opcode
  | .nop => .nop
  | .add _ _ => .add
  | .adc _ _ => .adc
  | .sub _ _ => .sub
  | .sbc _ _ => .sbc
  | .and _ _ => .and
  | .asr _ => .asr
  | .bset _ => .bset
  | .bclr _ => .bclr
  | .bst _ _ => .bst
  | .bld _ _ => .bld
  | .brbs _ _ => .brbs
  | .brbc _ _ => .brbc
  | .jmp _ => .jmp
  | .call _ => .call
  | .ret => .ret
  | .ldi _ _ => .ldi
  | .mov _ _ => .mov
  | .ld _ _ => .ld
  | .st _ _ => .st
  | .push _ => .push
  | .pop _ => .pop

/-- The bytes of a list as a source for `decodeFrom`. -/
def listByteAt (bs : List Byte) (n : Nat) : Except DecodeError Byte :=
  match bs[n]? with
  | some b => .ok b
  | none => .error .truncated

/-- The instruction at the head of a list of bytes, and the bytes after it. -/
def decode (bs : List Byte) : Except DecodeError (Instr × List Byte) :=
  match decodeFrom (listByteAt bs) .illegalOpcode with
  | .ok i => .ok (i, bs.drop i.opcode.len)
  | .error e => .error e

/-! ## The encoder -/

/-- The field `hi` of an instruction; 0 where its row has none. -/
def Instr.hi : Instr → Fin 16
  | .nop => 0
  | .add d _ => d
  | .adc d _ => d
  | .sub d _ => d
  | .sbc d _ => d
  | .and d _ => d
  | .asr d => d
  | .bset f => f
  | .bclr f => f
  | .bst d _ => d
  | .bld d _ => d
  | .brbs f _ => f
  | .brbc f _ => f
  | .jmp _ => 0
  | .call _ => 0
  | .ret => 0
  | .ldi d _ => d
  | .mov d _ => d
  | .ld d _ => d
  | .st d _ => d
  | .push r => r
  | .pop d => d

/-- The field `lo` of an instruction; 0 where its row has none or ignores it (R89: an assembler
writes ignored bits as 0). -/
def Instr.lo : Instr → Fin 16
  | .nop => 0
  | .add _ r => r
  | .adc _ r => r
  | .sub _ r => r
  | .sbc _ r => r
  | .and _ r => r
  | .asr _ => 0
  | .bset _ => 0
  | .bclr _ => 0
  | .bst _ b => b
  | .bld _ b => b
  | .brbs _ _ => 0
  | .brbc _ _ => 0
  | .jmp _ => 0
  | .call _ => 0
  | .ret => 0
  | .ldi _ _ => 0
  | .mov _ r => r
  | .ld _ r => r
  | .st _ r => r
  | .push _ => 0
  | .pop _ => 0

/-- The field `k` of an instruction; 0 where its row has none. -/
def Instr.const : Instr → Byte
  | .nop => 0
  | .add _ _ => 0
  | .adc _ _ => 0
  | .sub _ _ => 0
  | .sbc _ _ => 0
  | .and _ _ => 0
  | .asr _ => 0
  | .bset _ => 0
  | .bclr _ => 0
  | .bst _ _ => 0
  | .bld _ _ => 0
  | .brbs _ k => k
  | .brbc _ k => k
  | .jmp k => k
  | .call k => k
  | .ret => 0
  | .ldi _ k => k
  | .mov _ _ => 0
  | .ld _ _ => 0
  | .st _ _ => 0
  | .push _ => 0
  | .pop _ => 0

/-- The bytes of an instruction at ascending addresses: opcode, nibble pair, constant (R81). -/
def encode (i : Instr) : List Byte :=
  match i.opcode.format with
  | .n => [i.opcode.byte]
  | .p => [i.opcode.byte, nibblePair i.hi i.lo]
  | .k => [i.opcode.byte, i.const]
  | .pk => [i.opcode.byte, nibblePair i.hi i.lo, i.const]

/-! ## Words as the opcode table numbers them -/

/-- The length of the longest instruction in bytes (R80). -/
def maxLen : Nat := 3

/-- The bytes of a word of `nbits` bits, in address order, then zero bytes up to the longest
instruction. The table reads an instruction's bytes as one number with byte 0 most significant
(R93), so byte 0 is the topmost byte of the word. -/
def tableBytes (nbits w : Nat) : List Byte :=
  (List.range (nbits / 8)).map (fun j => BitVec.ofNat 8 (w / 2 ^ (nbits - 8 * (j + 1)))) ++
    List.replicate (maxLen - nbits / 8) 0

/-- The instruction the decoder reads from the word `w` of a table row of `nbits` bits. -/
def decodeTableWord (nbits w : Nat) : Option Instr :=
  match decode (tableBytes nbits w) with
  | .ok (i, _) => some i
  | .error _ => none

end Sys2Proof
end

