-- ==== Sys2Proof/Config.lean ====
section
/-! DEFINITION. What one chip fixes for its whole life: the parameters of rule R6 of 00_scope.md.
The spec leaves no value free (93_implementation_defined.md, end of section 1), so there is no
unconstrained constant here. -/

namespace Sys2Proof

/-- `FAULT_POLICY`: what `pc` does on a fault (R6, R177). -/
inductive FaultPolicy where
  | halt
  | skip
deriving DecidableEq, Repr

/-- The parameters of one chip (R6). `BITS = 8` and `FLAGS_LEN = 16` are fixed by the spec and are
the widths of the types; `SPEED` is timing only and no rule reads it (R210). -/
structure Config where
  /-- `NREGS`, the number of general registers. -/
  nregs : Nat
  /-- `RAM_SIZE`, bytes of RAM. -/
  ramSize : Nat
  /-- `ROM_SIZE`, bytes of ROM; 0 means there is no ROM. -/
  romSize : Nat
  /-- `FAULT_POLICY`. -/
  policy : FaultPolicy
deriving DecidableEq, Repr

/-- The legal values of R6 and R7; any other configuration is an `InvalidConfiguration`, for which
no hardware exists. -/
def Config.legal (c : Config) : Bool :=
  decide (1 ≤ c.nregs ∧ c.nregs ≤ 16 ∧ 1 ≤ c.ramSize ∧ c.ramSize ≤ 256 ∧ c.romSize ≤ 256)

/-- The reference configuration of R6: 8 registers, 256 bytes of RAM, no ROM, policy `halt`. -/
def Config.reference : Config := ⟨8, 256, 0, .halt⟩

end Sys2Proof
end

