-- ==== Sys2Proof/Machine/State.lean ====
section
/-! DEFINITION. The whole state of one chip (10_state.md, rules R20 to R38), as plain data, and its
value right after reset. -/

namespace Sys2Proof.Machine

/-- A memory: the bytes that differ from the reset contents 0x00 (R38), by strictly rising address.
An address that is not listed reads as 0x00 (`Memory.read`). -/
abbrev Memory := List Host.Cell

/-- The flag register as its 16-bit aggregate value `FLAGS` (R10, R26). -/
abbrev FlagWord := BitVec 16

/-- `FAULT.kind` (R31, R170). -/
inductive FaultKind where
  | none
  | illegalInstruction
  | boundsFault
deriving DecidableEq, Repr

/-- `FAULT.space` (R31, R170): which index was out of range. -/
inductive FaultSpace where
  | none
  | imem
  | reg
  | bit
  | ram
deriving DecidableEq, Repr

/-- The fault register `FAULT` (R31). -/
structure FaultReg where
  kind : FaultKind
  /-- `a0` of the cycle that faulted. -/
  pc : Byte
  space : FaultSpace
  /-- The opcode byte, or the offending index or address. -/
  value : Byte
deriving DecidableEq, Repr

/-- The empty fault register, its reset value (R38). -/
def FaultReg.empty : FaultReg := ⟨.none, 0#8, .none, 0#8⟩

/-- The lifecycle state `RUN` (R32). -/
inductive RunState where
  | constructed
  | booted
  | halted
deriving DecidableEq, Repr

/-- One chip: its configuration, which no step changes, and everything the spec calls state. -/
structure State where
  /-- The chip's parameters (R6). -/
  cfg : Config
  /-- The register file (R20): slot `i` is `x[i]` for `i < NREGS`; the other slots are no registers
  and nothing reads or writes them. -/
  regs : Vector Byte 16
  /-- The program counter (R23). -/
  pc : Byte
  /-- The stack pointer (R30). -/
  sp : Byte
  /-- The flag register `F` (R26). -/
  flags : FlagWord
  /-- The fault register `FAULT` (R31). -/
  fault : FaultReg
  /-- The lifecycle state `RUN` (R32). -/
  run : RunState
  /-- `RAM` (R35). -/
  ram : Memory
  /-- `ROM` (R35); empty and unreachable when `ROM_SIZE = 0`. -/
  rom : Memory
deriving DecidableEq, Repr

/-- What the host's load interface addresses by index (R41). -/
inductive HostStore where
  | register
  | flag
  | ram
  | rom
deriving DecidableEq, Repr

/-- Why something stops with a fault that is not an event of a cycle. A fault of a CYCLE is never one
of these: it is a next state with `FAULT` written (R176). -/
inductive Fault where
  /-- Raised by the host's load interface (`hostWrite`) only, for an index outside the store it
  names: nothing is written and the caller is told (R41, R173). No step raises it. Safe. -/
  | hostIndexOutOfRange (store : HostStore) (index : Nat)
deriving DecidableEq, Repr

/-- Why something has no meaning in the model. -/
inductive Refusal where
  /-- Raised by no arm of `exec`: every instruction of table G8-1 has its meaning. Safe. -/
  | notModelled (mnemonic : String)
  /-- Raised by `step` and `construct` on a configuration outside R6's legal values: no hardware
  exists for it (R7, R171). Safe. -/
  | invalidConfiguration
  /-- Raised by `hostWrite` while the machine is Booted: the host then writes nothing (R41). Safe. -/
  | hostWriteWhileBooted
deriving DecidableEq, Repr

/-- A chip of configuration `c` right after `Reset` (R38). -/
def State.resetWith (c : Config) : State where
  cfg := c
  regs := Vector.replicate 16 0#8
  pc := 0#8
  sp := 0#8
  flags := 0#16
  fault := FaultReg.empty
  run := .constructed
  ram := []
  rom := []

/-- The machine right after reset, in the reference configuration of R6. -/
def State.reset : State := State.resetWith Config.reference

end Sys2Proof.Machine
end

