-- ==== Sys2Proof/Machine/Ops.lean ====
section
/-! DEFINITION. The named operations over registers and memory, and taking a fault, which is the
machine's one kind of exception (10_state.md, 20_memory.md, 43_data_stack.md R159,
60_exceptions.md R170 to R178). There is no return from a fault: no handler runs inside the
machine (R179). -/

namespace Sys2Proof.Machine

/-! ## Memory -/

/-- The byte at address `a`; 0x00, the reset contents (R38), where nothing is listed. -/
def Memory.read (m : Memory) (a : Nat) : Byte :=
  match m with
  | [] => 0#8
  | (b, w) :: rest => if a = b then w else if a < b then 0#8 else Memory.read rest a

/-- The memory with byte `a` set to `v`, in canonical form: a byte equal to the reset contents is not
listed. -/
def Memory.write (m : Memory) (a : Nat) (v : Byte) : Memory :=
  match m with
  | [] => if v = 0#8 then [] else [(a, v)]
  | (b, w) :: rest =>
    if a < b then (if v = 0#8 then (b, w) :: rest else (a, v) :: (b, w) :: rest)
    else if a = b then (if v = 0#8 then rest else (a, v) :: rest)
    else (b, w) :: Memory.write rest a v

/-- Every listed address is at least `lo`, addresses rise strictly, and no listed byte is 0x00. -/
def Memory.wfFrom (lo : Nat) (m : Memory) : Bool :=
  match m with
  | [] => true
  | (a, v) :: rest => decide (lo ≤ a) && decide (v ≠ 0#8) && Memory.wfFrom (a + 1) rest

/-- The canonical form of a memory. -/
def Memory.wf (m : Memory) : Bool := Memory.wfFrom 0 m

/-- Every listed address exists in a memory of `size` bytes (R35). -/
def Memory.within (size : Nat) (m : Memory) : Bool := m.all (fun c => decide (c.1 < size))

/-! ## Registers and other fields -/

/-- `x[i]` (R20). -/
def State.reg (s : State) (i : RegIdx) : Byte := s.regs.get i

/-- `x[i] <- v` (R20). -/
def State.setReg (s : State) (i : RegIdx) (v : Byte) : State :=
  { s with regs := s.regs.set i.val v i.isLt }

/-- `F <- w`, all sixteen bits. -/
def State.setFlags (s : State) (w : FlagWord) : State := { s with flags := w }

/-- `pc <- a` (R23). -/
def State.setPc (s : State) (a : Byte) : State := { s with pc := a }

/-- `sp <- a` (R30). -/
def State.setSp (s : State) (a : Byte) : State := { s with sp := a }

/-- `RAM <- m`. -/
def State.setRam (s : State) (m : Memory) : State := { s with ram := m }

/-- `ROM <- m`; used by reset and the host's load interface only (R35). -/
def State.setRom (s : State) (m : Memory) : State := { s with rom := m }

/-- `pc <- wrap8(a0 + n)` (R24). -/
def State.advance (s : State) (n : Byte) : State := s.setPc (s.pc + n)

/-! ## Faults of a cycle -/

/-- What a cycle can raise (R170). -/
inductive CycleFault where
  /-- `IllegalInstruction(opcode)`. -/
  | illegal (op : Byte)
  /-- `BoundsFault(IMEM, address)`. -/
  | imem (a : Byte)
  /-- `BoundsFault(REG, index)`. -/
  | reg (i : Fin 16)
  /-- `BoundsFault(BIT, index)`. -/
  | bit (b : Fin 16)
  /-- `BoundsFault(RAM, address)`. -/
  | ram (a : Byte)
deriving DecidableEq, Repr

/-- The number of a `FAULT.kind` (R31); 3 never occurs. -/
def FaultKind.code : FaultKind → BitVec 2
  | .none => 0
  | .illegalInstruction => 1
  | .boundsFault => 2

/-- The number of a `FAULT.space` (R31). -/
def FaultSpace.code : FaultSpace → BitVec 3
  | .none => 0
  | .imem => 1
  | .reg => 2
  | .bit => 3
  | .ram => 4

/-- The `FAULT.kind` of a fault (R170). -/
def CycleFault.kind : CycleFault → FaultKind
  | .illegal _ => .illegalInstruction
  | .imem _ => .boundsFault
  | .reg _ => .boundsFault
  | .bit _ => .boundsFault
  | .ram _ => .boundsFault

/-- The `FAULT.space` of a fault (R170). -/
def CycleFault.space : CycleFault → FaultSpace
  | .illegal _ => .none
  | .imem _ => .imem
  | .reg _ => .reg
  | .bit _ => .bit
  | .ram _ => .ram

/-- The `FAULT.value` of a fault, an index zero-extended to 8 bits (R31, R170). -/
def CycleFault.value : CycleFault → Byte
  | .illegal op => op
  | .imem a => a
  | .reg i => BitVec.ofNat 8 i.val
  | .bit b => BitVec.ofNat 8 b.val
  | .ram a => a

/-- TAKING A FAULT (R176), the one shared operation for it: in a cycle that began in `s`, record the
fault with `a0`, leave `pc` or move it past the faulting instruction by `n` (R177) as the policy
says, and stop a Booted machine. Every write of the cycle is discarded: nothing else changes. -/
def State.takeFault (s : State) (f : CycleFault) (n : Byte) : State :=
  { s with
    fault := ⟨f.kind, s.pc, f.space, f.value⟩
    pc := match s.cfg.policy with
      | .halt => s.pc
      | .skip => s.pc + n
    run := match s.run with
      | .booted => .halted
      | .constructed => .constructed
      | .halted => .halted }

/-- The end of a cycle that began in `s` with an instruction of `n` bytes: commit the new state, or
take the fault (R86). -/
def retire (s : State) (n : Byte) (r : Except CycleFault State) :
    Host.Outcome State Fault Refusal :=
  match r with
  | .ok t => .next t
  | .error f => .next (s.takeFault f n)

/-! ## The two address spaces -/

/-- `IMEM_SIZE` (R51). -/
def imemSize (c : Config) : Nat := if 0 < c.romSize then c.romSize else c.ramSize

/-- The memory that backs the instruction space: ROM if present, else RAM (R51). -/
def State.imem (s : State) : Memory := if 0 < s.cfg.romSize then s.rom else s.ram

/-- `IFetch(addr)` (R52). -/
def State.ifetch (s : State) (a : Byte) : Except CycleFault Byte :=
  if a.toNat < imemSize s.cfg then .ok (Memory.read s.imem a.toNat) else .error (.imem a)

/-- `MemRead(addr, 1)` (R53). -/
def State.memRead (s : State) (a : Byte) : Except CycleFault Byte :=
  if a.toNat < s.cfg.ramSize then .ok (Memory.read s.ram a.toNat) else .error (.ram a)

/-- `MemWrite(addr, 1, v)` (R53). -/
def State.memWrite (s : State) (a v : Byte) : Except CycleFault State :=
  if a.toNat < s.cfg.ramSize then .ok (s.setRam (Memory.write s.ram a.toNat v)) else .error (.ram a)

/-! ## The stack -/

/-- Push one byte (R159): `sp` is decremented, then the byte is written at the new `sp`; if that
address is outside RAM neither changes. -/
def State.pushByte (s : State) (v : Byte) : Except CycleFault State := do
  let t ← s.memWrite (s.sp - 1) v
  .ok (t.setSp (s.sp - 1))

/-- Pop one byte (R159): the byte at `sp` is read, then `sp` is incremented; if `sp` is outside RAM
nothing changes. -/
def State.popByte (s : State) : Except CycleFault (Byte × State) := do
  let v ← s.memRead s.sp
  .ok (v, s.setSp (s.sp + 1))

end Sys2Proof.Machine
end

