-- ==== Sys2Proof/Machine/Flags.lean ====
section
/-! DEFINITION. The flag register's bits (10_state.md R26) and every flag computation of the
arithmetic, logic and shift family (40_arith_logic.md R117), each from the exact integer result. -/

namespace Sys2Proof.Machine

/-! ## The nine named flags -/

/-- The flags of R26. -/
inductive Flag where
  | zero
  | carry
  | overflow
  | parity
  | trap
  | halfCarry
  | sign
  | interruptEnable
  | transfer
deriving DecidableEq, Repr

/-- The BitField index of a flag (R26). -/
def Flag.index : Flag → FlagIdx
  | .zero => 0
  | .carry => 1
  | .overflow => 2
  | .parity => 3
  | .trap => 4
  | .halfCarry => 5
  | .sign => 6
  | .interruptEnable => 7
  | .transfer => 8

/-- `F[i]`: BitField index `i` is bit `15 - i` of the aggregate (R10). -/
def getFlag (w : FlagWord) (i : FlagIdx) : Bool := w.getLsbD (15 - i.val)

/-- `F[i] <- b` (R10): the other fifteen bits are kept. -/
def setFlag (w : FlagWord) (i : FlagIdx) (b : Bool) : FlagWord :=
  if b then w ||| (0x8000#16 >>> i.val) else w &&& ~~~(0x8000#16 >>> i.val)

/-- `F.<flag>` of a state. -/
def State.flag (s : State) (f : Flag) : Bool := getFlag s.flags f.index

/-! ## Results and flags -/

/-- Zero: "result == 0" (R117). -/
def isZero (v : Byte) : Bool := decide (v = 0#8)

/-- Sign: the high bit of the result (R117). -/
def signBit (v : Byte) : Bool := v.getLsbD 7

/-- The carry or borrow in as a number. -/
def carryIn (c : Bool) : Int := if c then 1 else 0

/-- "Signed range exceeded": outside `-128..127` (R117). -/
def outsideSigned (t : Int) : Bool := decide (t < -128 ∨ 127 < t)

/-- The exact sum `u(a) + u(b) + cin` (R117). -/
def exactSum (a b : Byte) (cin : Bool) : Int := (a.toNat : Int) + (b.toNat : Int) + carryIn cin

/-- The exact difference `u(a) - u(b) - cin` (R117). -/
def exactDiff (a b : Byte) (cin : Bool) : Int := (a.toNat : Int) - (b.toNat : Int) - carryIn cin

/-- A result and the five flags computed with it. -/
structure AluResult where
  value : Byte
  z : Bool
  c : Bool
  v : Bool
  h : Bool
  s : Bool
deriving DecidableEq, Repr

/-- An addition with carry in (R117). -/
def addResult (a b : Byte) (cin : Bool) : AluResult where
  value := wrap8 (exactSum a b cin)
  z := isZero (wrap8 (exactSum a b cin))
  c := decide (255 < exactSum a b cin)
  v := outsideSigned (a.toInt + b.toInt + carryIn cin)
  h := decide (15 < ((loNibble a).val : Int) + ((loNibble b).val : Int) + carryIn cin)
  s := signBit (wrap8 (exactSum a b cin))

/-- A subtraction with borrow in (R117); Carry acts as Borrow. -/
def subResult (a b : Byte) (cin : Bool) : AluResult where
  value := wrap8 (exactDiff a b cin)
  z := isZero (wrap8 (exactDiff a b cin))
  c := decide (exactDiff a b cin < 0)
  v := outsideSigned (a.toInt - b.toInt - carryIn cin)
  h := decide (((loNibble a).val : Int) - ((loNibble b).val : Int) - carryIn cin < 0)
  s := signBit (wrap8 (exactDiff a b cin))

/-- Write Z, C, V, H and S, the flag set of ADD, ADC, SUB and SBC (R27). -/
def setArithFlags (w : FlagWord) (r : AluResult) : FlagWord :=
  setFlag (setFlag (setFlag (setFlag (setFlag w Flag.zero.index r.z) Flag.carry.index r.c)
    Flag.overflow.index r.v) Flag.halfCarry.index r.h) Flag.sign.index r.s

/-- Write Z and S from a result, the flag set of AND (R27, R115). -/
def setLogicFlags (w : FlagWord) (v : Byte) : FlagWord :=
  setFlag (setFlag w Flag.zero.index (isZero v)) Flag.sign.index (signBit v)

/-- One position to the right with bit 7 kept: `a[7] : a[7:1]` (R116). -/
def shiftRightArith (a : Byte) : Byte := (a &&& 0x80#8) ||| (a >>> 1)

/-- Write C from the bit shifted out, and Z and S from the result: the flag set of ASR (R27, R116). -/
def setShiftFlags (w : FlagWord) (a : Byte) : FlagWord :=
  setFlag (setLogicFlags w (shiftRightArith a)) Flag.carry.index (a.getLsbD 0)

end Sys2Proof.Machine
end

