-- ==== Sys2Proof/Machine/Operands.lean ====
section
/-! DEFINITION. Every operand form of table G8-1 (30_encoding.md, rules R84, R90, R91): registers,
bit indices in a register, absolute addresses and branch offsets. Immediate data are the eight bits
as they are. -/

namespace Sys2Proof.Machine

/-- The range check of a register operand (R21, R91). -/
def State.checkReg (s : State) (i : RegIdx) : Except CycleFault Unit :=
  if i.val < s.cfg.nregs then .ok () else .error (.reg i)

/-- Read a register operand `x[i]`, range check first (R12, R21). -/
def State.readReg (s : State) (i : RegIdx) : Except CycleFault Byte :=
  if i.val < s.cfg.nregs then .ok (s.reg i) else .error (.reg i)

/-- The range check of a register bit index (R91, R130). -/
def checkBit (b : BitIdx) : Except CycleFault Unit :=
  if b.val < 8 then .ok () else .error (.bit b)

/-- `v[b]`, LSB-0 (R9, R130). -/
def bitOf (v : Byte) (b : BitIdx) : Bool := v.getLsbD b.val

/-- `v` with `v[b] <- x`, the other seven bits kept (R134). -/
def withBit (v : Byte) (b : BitIdx) (x : Bool) : Byte :=
  if x then v ||| (1#8 <<< b.val) else v &&& ~~~(1#8 <<< b.val)

/-- The target of a taken branch, `wrap8(a0 + s(k))`: relative to the branch's own address (R146). -/
def branchTarget (a0 k : Byte) : Byte := wrap8 ((a0.toNat : Int) + k.toInt)

end Sys2Proof.Machine
end

