-- ==== Sys2Proof/Machine/Arith.lean ====
section
/-! DEFINITION. Arithmetic, logic and shift (40_arith_logic.md): ADD, ADC, SUB, SBC, AND, ASR. -/

namespace Sys2Proof.Machine

/-- The shape of the two-register instructions (R110): both registers are checked, `d` first, and
read; then the result and the flags are written and `pc` moves on by 2. -/
def aluRegReg (d r : RegIdx) (f : Byte → Byte → FlagWord → Byte × FlagWord) (s : State) :
    Except CycleFault State := do
  let a ← s.readReg d
  let b ← s.readReg r
  .ok (((s.setReg d (f a b s.flags).1).setFlags (f a b s.flags).2).advance 2)

/-- An addition and the flags it writes. -/
def addWrites (cin : Bool) (a b : Byte) (w : FlagWord) : Byte × FlagWord :=
  ((addResult a b cin).value, setArithFlags w (addResult a b cin))

/-- A subtraction and the flags it writes. -/
def subWrites (cin : Bool) (a b : Byte) (w : FlagWord) : Byte × FlagWord :=
  ((subResult a b cin).value, setArithFlags w (subResult a b cin))

/-- ADD `rd, rr` (R111): the carry in is 0. -/
def execAdd (d r : RegIdx) (s : State) : Host.Outcome State Fault Refusal :=
  retire s 2 (aluRegReg d r (addWrites false) s)

/-- ADC `rd, rr` (R112): the carry in is `F.C`. -/
def execAdc (d r : RegIdx) (s : State) : Host.Outcome State Fault Refusal :=
  retire s 2 (aluRegReg d r (addWrites (s.flag .carry)) s)

/-- SUB `rd, rr` (R113): the borrow in is 0. -/
def execSub (d r : RegIdx) (s : State) : Host.Outcome State Fault Refusal :=
  retire s 2 (aluRegReg d r (subWrites false) s)

/-- SBC `rd, rr` (R114): the borrow in is `F.C`. -/
def execSbc (d r : RegIdx) (s : State) : Host.Outcome State Fault Refusal :=
  retire s 2 (aluRegReg d r (subWrites (s.flag .carry)) s)

/-- AND `rd, rr` (R115). -/
def execAnd (d r : RegIdx) (s : State) : Host.Outcome State Fault Refusal :=
  retire s 2 (aluRegReg d r (fun a b w => (a &&& b, setLogicFlags w (a &&& b))) s)

/-- ASR `rd` (R116). -/
def execAsr (d : RegIdx) (s : State) : Host.Outcome State Fault Refusal :=
  retire s 2 (do
    let a ← s.readReg d
    .ok (((s.setReg d (shiftRightArith a)).setFlags (setShiftFlags s.flags a)).advance 2))

end Sys2Proof.Machine
end

