-- ==== Sys2Proof/Machine/Bits.lean ====
section
/-! DEFINITION. Bit instructions (41_bit.md): BSET, BCLR, BST, BLD. A flag index is a BitField
index, a register bit index is LSB-0 (R130). -/

namespace Sys2Proof.Machine

/-- BSET `s` (R131). -/
def execBset (f : FlagIdx) (s : State) : Host.Outcome State Fault Refusal :=
  .next ((s.setFlags (setFlag s.flags f true)).advance 2)

/-- BCLR `s` (R132). -/
def execBclr (f : FlagIdx) (s : State) : Host.Outcome State Fault Refusal :=
  .next ((s.setFlags (setFlag s.flags f false)).advance 2)

/-- BST `rd, b` (R133). -/
def execBst (d : RegIdx) (b : BitIdx) (s : State) : Host.Outcome State Fault Refusal :=
  retire s 2 (do
    let v ← s.readReg d
    checkBit b
    .ok ((s.setFlags (setFlag s.flags Flag.transfer.index (bitOf v b))).advance 2))

/-- BLD `rd, b` (R134). -/
def execBld (d : RegIdx) (b : BitIdx) (s : State) : Host.Outcome State Fault Refusal :=
  retire s 2 (do
    let v ← s.readReg d
    checkBit b
    .ok ((s.setReg d (withBit v b (s.flag .transfer))).advance 2))

end Sys2Proof.Machine
end

