-- ==== Sys2Proof/Machine/Control.lean ====
section
/-! DEFINITION. Control transfer and NOP (42_control.md): BRBS, BRBC, JMP, CALL, RET, NOP. No target
is checked here: one outside the instruction space faults at the next fetch (R146). -/

namespace Sys2Proof.Machine

/-- NOP (R145). -/
def execNop (s : State) : Host.Outcome State Fault Refusal := .next (s.advance 1)

/-- A conditional branch: to `wrap8(a0 + s(k))` if taken, else past its three bytes (R146). -/
def branchIf (taken : Bool) (k : Byte) (s : State) : State :=
  if taken then s.setPc (branchTarget s.pc k) else s.advance 3

/-- BRBS `s, k` (R140). -/
def execBrbs (f : FlagIdx) (k : Byte) (s : State) : Host.Outcome State Fault Refusal :=
  .next (branchIf (getFlag s.flags f) k s)

/-- BRBC `s, k` (R141). -/
def execBrbc (f : FlagIdx) (k : Byte) (s : State) : Host.Outcome State Fault Refusal :=
  .next (branchIf (!getFlag s.flags f) k s)

/-- JMP `k` (R142). -/
def execJmp (k : Byte) (s : State) : Host.Outcome State Fault Refusal := .next (s.setPc k)

/-- CALL `k` (R143): the address of the next instruction, `wrap8(a0 + 2)`, is pushed. -/
def execCall (k : Byte) (s : State) : Host.Outcome State Fault Refusal :=
  retire s 2 (do
    let t ← s.pushByte (s.pc + 2)
    .ok (t.setPc k))

/-- RET (R144). -/
def execRet (s : State) : Host.Outcome State Fault Refusal :=
  retire s 1 (do
    let (a, t) ← s.popByte
    .ok (t.setPc a))

end Sys2Proof.Machine
end

