-- ==== Sys2Proof/Machine/Data.lean ====
section
/-! DEFINITION. Data movement and stack (43_data_stack.md): LDI, MOV, LD, ST, PUSH, POP. -/

namespace Sys2Proof.Machine

/-- LDI `rd, K` (R155). -/
def execLdi (d : RegIdx) (k : Byte) (s : State) : Host.Outcome State Fault Refusal :=
  retire s 3 (do
    s.checkReg d
    .ok ((s.setReg d k).advance 3))

/-- MOV `rd, rr` (R156). -/
def execMov (d r : RegIdx) (s : State) : Host.Outcome State Fault Refusal :=
  retire s 2 (do
    s.checkReg d
    let v ← s.readReg r
    .ok ((s.setReg d v).advance 2))

/-- LD `rd, (rr)` (R157): the address is read before the destination is written. -/
def execLd (d r : RegIdx) (s : State) : Host.Outcome State Fault Refusal :=
  retire s 2 (do
    s.checkReg d
    let ea ← s.readReg r
    let v ← s.memRead ea
    .ok ((s.setReg d v).advance 2))

/-- ST `(rd), rr` (R158). -/
def execSt (d r : RegIdx) (s : State) : Host.Outcome State Fault Refusal :=
  retire s 2 (do
    let ea ← s.readReg d
    let v ← s.readReg r
    let t ← s.memWrite ea v
    .ok (t.advance 2))

/-- PUSH `rr` (R160). -/
def execPush (r : RegIdx) (s : State) : Host.Outcome State Fault Refusal :=
  retire s 2 (do
    let v ← s.readReg r
    let t ← s.pushByte v
    .ok (t.advance 2))

/-- POP `rd` (R161). -/
def execPop (d : RegIdx) (s : State) : Host.Outcome State Fault Refusal :=
  retire s 2 (do
    s.checkReg d
    let (v, t) ← s.popByte
    .ok ((t.setReg d v).advance 2))

end Sys2Proof.Machine
end

