-- ==== Sys2Proof/Machine/Dispatch.lean ====
section
/-! DEFINITION. The execution of one decoded instruction: one arm per row of table G8-1. -/

namespace Sys2Proof.Machine

/-- The effect of `i` in a cycle that began in `s` with `pc = a0`, the address of `i` (R86). -/
def exec (i : Instr) (s : State) : Host.Outcome State Fault Refusal :=
  match i with
  | .nop => Sys2Proof.Machine.execNop s
  | .add d r => Sys2Proof.Machine.execAdd d r s
  | .adc d r => Sys2Proof.Machine.execAdc d r s
  | .sub d r => Sys2Proof.Machine.execSub d r s
  | .sbc d r => Sys2Proof.Machine.execSbc d r s
  | .and d r => Sys2Proof.Machine.execAnd d r s
  | .asr d => Sys2Proof.Machine.execAsr d s
  | .bset f => Sys2Proof.Machine.execBset f s
  | .bclr f => Sys2Proof.Machine.execBclr f s
  | .bst d b => Sys2Proof.Machine.execBst d b s
  | .bld d b => Sys2Proof.Machine.execBld d b s
  | .brbs f k => Sys2Proof.Machine.execBrbs f k s
  | .brbc f k => Sys2Proof.Machine.execBrbc f k s
  | .jmp k => Sys2Proof.Machine.execJmp k s
  | .call k => Sys2Proof.Machine.execCall k s
  | .ret => Sys2Proof.Machine.execRet s
  | .ldi d k => Sys2Proof.Machine.execLdi d k s
  | .mov d r => Sys2Proof.Machine.execMov d r s
  | .ld d r => Sys2Proof.Machine.execLd d r s
  | .st d r => Sys2Proof.Machine.execSt d r s
  | .push r => Sys2Proof.Machine.execPush r s
  | .pop d => Sys2Proof.Machine.execPop d s

end Sys2Proof.Machine
end

