-- ==== Sys2Proof/Machine/Fetch.lean ====
section
/-! DEFINITION. Fetch and decode at `pc` (30_encoding.md R85), the distance a fault of the fetch
skips (60_exceptions.md R177), and placing bytes in the instruction space, as the host's load does. -/

namespace Sys2Proof.Machine

/-- The source of bytes of the instruction at `pc`: byte `n` is at `wrap8(a0 + n)` (R25, R85). -/
def State.byteAtPc (s : State) (n : Nat) : Except CycleFault Byte :=
  s.ifetch (s.pc + BitVec.ofNat 8 n)

/-- The instruction at `pc`, or the first fault of R175 (1) to (4). -/
def State.fetch (s : State) : Except CycleFault Instr := decodeFrom s.byteAtPc .illegal

/-- How far `pc` moves past a faulting fetch under the policy `skip`: `len(opcode)` if the opcode
byte was fetched and is in the table, else 1 (R177). -/
def State.fetchSkip (s : State) : Byte :=
  match s.ifetch s.pc with
  | .error _ => 1
  | .ok b0 =>
    match Opcode.ofByte b0 with
    | none => 1
    | some o => BitVec.ofNat 8 o.len

/-- Write one byte of the instruction space, ROM if present, else RAM (R51), as the host's load
interface may (R41); an address outside it is left alone. -/
def State.placeByte (s : State) (a v : Byte) : State :=
  if a.toNat < imemSize s.cfg then
    if 0 < s.cfg.romSize then s.setRom (Memory.write s.rom a.toNat v)
    else s.setRam (Memory.write s.ram a.toNat v)
  else s

/-- Write a list of bytes at ascending (wrapping) addresses of the instruction space. -/
def State.placeBytes (s : State) (a : Byte) (bs : List Byte) : State :=
  match bs with
  | [] => s
  | b :: rest => (s.placeByte a b).placeBytes (a + 1) rest

end Sys2Proof.Machine
end

