-- ==== Sys2Proof/Machine/Step.lean ====
section
/-! DEFINITION. One cycle of the machine (30_encoding.md R86): fetch and decode at `pc`, then execute
or take the fault. Who drives the cycle, the clock or the host's `Step`, is in Lifecycle.lean. -/

namespace Sys2Proof.Machine

/-- One cycle. It is the same whatever `RUN` is: a Booted machine runs it on a clock tick (R189), any
other on the host's `Step` (R188). An illegal configuration has no machine (R7). -/
def step (s : State) : Host.Outcome State Fault Refusal :=
  if s.cfg.legal then
    match s.fetch with
    | .ok i => exec i s
    | .error f => .next (s.takeFault f s.fetchSkip)
  else .refused .invalidConfiguration

/-- `s` with the instruction `w` of `nbits` bits, numbered as the opcode table numbers it (R93), in
the instruction space at `pc`, zero bytes after it up to the longest instruction. It stands for the
host's load (R41, R202). -/
def State.withFetchWord (s : State) (nbits w : Nat) : State := s.placeBytes s.pc (tableBytes nbits w)

end Sys2Proof.Machine
end

