-- ==== Sys2Proof/Machine/Lifecycle.lean ====
section
/-! DEFINITION. What the host may do between cycles (60_exceptions.md, rules R185 to R189, R195;
10_state.md, rules R39 to R41): construction, the five events, and the load interface. Introspection
(R40) is reading the fields of State and needs no operation. -/

namespace Sys2Proof.Machine

/-! ## Construction -/

/-- The source's `construct(config)` (R171, R185): a configuration outside the legal values gives no
usable machine. -/
def construct (c : Config) : Host.Outcome State Fault Refusal :=
  if c.legal then .next (State.resetWith c) else .refused .invalidConfiguration

/-! ## The load interface -/

/-- One write of the host (R41). Indices and values are any numbers: values wrap (R11), indices are
bounds-checked. -/
inductive HostWrite where
  | reg (i : Nat) (v : Int)
  | pc (v : Int)
  | sp (v : Int)
  | flag (i : Nat) (b : Bool)
  | ram (a : Nat) (v : Int)
  | rom (a : Nat) (v : Int)
deriving DecidableEq, Repr

/-- The effect of a host write on a machine that is not Booted. -/
def State.load (s : State) (w : HostWrite) : Host.Outcome State Fault Refusal :=
  match w with
  | .reg i v =>
    if h : i < 16 then
      if i < s.cfg.nregs then .next (s.setReg ⟨i, h⟩ (wrap8 v))
      else .fault (.hostIndexOutOfRange .register i)
    else .fault (.hostIndexOutOfRange .register i)
  | .pc v => .next (s.setPc (wrap8 v))
  | .sp v => .next (s.setSp (wrap8 v))
  | .flag i b =>
    if h : i < 16 then .next (s.setFlags (setFlag s.flags ⟨i, h⟩ b))
    else .fault (.hostIndexOutOfRange .flag i)
  | .ram a v =>
    if a < s.cfg.ramSize then .next (s.setRam (Memory.write s.ram a (wrap8 v)))
    else .fault (.hostIndexOutOfRange .ram a)
  | .rom a v =>
    if a < s.cfg.romSize then .next (s.setRom (Memory.write s.rom a (wrap8 v)))
    else .fault (.hostIndexOutOfRange .rom a)

/-- A host write: none while the machine is Booted (R41). -/
def hostWrite (w : HostWrite) (s : State) : Host.Outcome State Fault Refusal :=
  match s.run with
  | .booted => .refused .hostWriteWhileBooted
  | .constructed => s.load w
  | .halted => s.load w

/-! ## The events -/

/-- What reaches the machine from outside, between cycles. -/
inductive HostEvent where
  /-- `Reset` (R185). -/
  | reset
  /-- `Boot` (R186). -/
  | boot
  /-- `Halt` (R187). -/
  | halt
  /-- `Step` (R188). -/
  | step
  /-- One tick of the clock (R189). -/
  | tick
  /-- One write through the load interface (R41). -/
  | write (w : HostWrite)
deriving DecidableEq, Repr

/-- `Boot` (R39, R186): clears the flag register and nothing else, and starts the clock; nothing
happens if the machine is already Booted. -/
def State.boot (s : State) : State :=
  match s.run with
  | .booted => s
  | .constructed => { s with flags := 0#16, run := .booted }
  | .halted => { s with flags := 0#16, run := .booted }

/-- `Halt` (R187): stops a Booted machine; in any other state nothing happens. -/
def State.halt (s : State) : State :=
  match s.run with
  | .booted => { s with run := .halted }
  | .constructed => s
  | .halted => s

/-- What an event does to the machine. Events act between cycles (R57, R187). -/
def hostEvent (e : HostEvent) (s : State) : Host.Outcome State Fault Refusal :=
  match e with
  | .reset => construct s.cfg
  | .boot => .next s.boot
  | .halt => .next s.halt
  | .step =>
    match s.run with
    | .booted => .next s
    | .constructed => Sys2Proof.Machine.step s
    | .halted => Sys2Proof.Machine.step s
  | .tick =>
    match s.run with
    | .booted => Sys2Proof.Machine.step s
    | .constructed => .next s
    | .halted => .next s
  | .write w => hostWrite w s

/-- A run: a sequence of events, one after the other (R195). -/
def runEvents (es : List HostEvent) (s : State) : Host.Outcome State Fault Refusal :=
  match es with
  | [] => .next s
  | e :: rest =>
    match hostEvent e s with
    | .next t => runEvents rest t
    | .fault r => .fault r
    | .refused r => .refused r

end Sys2Proof.Machine
end

