-- ==== Sys2Proof/WellFormed.lean ====
section
/-! DEFINITION. Which instructions have all their operands in range on a given chip: the range
checks of rule R91 of 30_encoding.md, read off the instruction alone. Every `Instr` has an
encoding; one that is not well formed still decodes and runs, and its cycle records the bounds
fault of R91. -/

namespace Sys2Proof

/-- The register the instruction names in its high nibble: kind `d`, or `r` for PUSH (R91 (1)). -/
def Instr.hiReg : Instr → Option RegIdx
  | .nop => none
  | .add d _ => some d
  | .adc d _ => some d
  | .sub d _ => some d
  | .sbc d _ => some d
  | .and d _ => some d
  | .asr d => some d
  | .bset _ => none
  | .bclr _ => none
  | .bst d _ => some d
  | .bld d _ => some d
  | .brbs _ _ => none
  | .brbc _ _ => none
  | .jmp _ => none
  | .call _ => none
  | .ret => none
  | .ldi d _ => some d
  | .mov d _ => some d
  | .ld d _ => some d
  | .st d _ => some d
  | .push r => some r
  | .pop d => some d

/-- The register the instruction names in its low nibble: kind `r`, but for PUSH (R91 (2)). -/
def Instr.loReg : Instr → Option RegIdx
  | .nop => none
  | .add _ r => some r
  | .adc _ r => some r
  | .sub _ r => some r
  | .sbc _ r => some r
  | .and _ r => some r
  | .asr _ => none
  | .bset _ => none
  | .bclr _ => none
  | .bst _ _ => none
  | .bld _ _ => none
  | .brbs _ _ => none
  | .brbc _ _ => none
  | .jmp _ => none
  | .call _ => none
  | .ret => none
  | .ldi _ _ => none
  | .mov _ r => some r
  | .ld _ r => some r
  | .st _ r => some r
  | .push _ => none
  | .pop _ => none

/-- The register bit index of BST and BLD (R91 (3)). -/
def Instr.bitOperand : Instr → Option BitIdx
  | .nop => none
  | .add _ _ => none
  | .adc _ _ => none
  | .sub _ _ => none
  | .sbc _ _ => none
  | .and _ _ => none
  | .asr _ => none
  | .bset _ => none
  | .bclr _ => none
  | .bst _ b => some b
  | .bld _ b => some b
  | .brbs _ _ => none
  | .brbc _ _ => none
  | .jmp _ => none
  | .call _ => none
  | .ret => none
  | .ldi _ _ => none
  | .mov _ _ => none
  | .ld _ _ => none
  | .st _ _ => none
  | .push _ => none
  | .pop _ => none

/-- The operand, if there is one, lies below the bound. -/
def inRange (bound : Nat) (x : Option (Fin 16)) : Bool := x.all (fun i => decide (i.val < bound))

/-- All operands in range on a chip with configuration `c`: both register fields below `NREGS` and
the bit index below 8 (R91). A flag index is never out of range. -/
def Instr.wellFormed (c : Config) (i : Instr) : Bool :=
  inRange c.nregs i.hiReg && inRange c.nregs i.loReg && inRange 8 i.bitOperand

end Sys2Proof
end

