-- ==== Sys2Proof/Safety.lean ====
section
/-! DEFINITION. The terms claims are stated in: the machine's invariant, what a cycle leaves
unchanged, what taking a fault leaves behind, the spec's whole-machine tables (which register, flag
or byte an instruction may write), and a run in which no cycle faults. -/

namespace Sys2Proof.Machine

/-! ## The invariant -/

/-- What `FAULT` can hold on a chip with configuration `c`: nothing, or one row of R170's table with a
value that row can report (R31, R170, R172, R173). -/
def FaultReg.possible (c : Config) (f : FaultReg) : Bool :=
  match f.kind, f.space with
  | .none, .none => decide (f.pc = 0#8 ∧ f.value = 0#8)
  | .illegalInstruction, .none => decide (Opcode.ofByte f.value = none)
  | .boundsFault, .imem => decide (imemSize c ≤ f.value.toNat)
  | .boundsFault, .reg => decide (c.nregs ≤ f.value.toNat ∧ f.value.toNat < 16)
  | .boundsFault, .bit => decide (8 ≤ f.value.toNat ∧ f.value.toNat < 16)
  | .boundsFault, .ram => decide (c.ramSize ≤ f.value.toNat)
  | _, _ => false

/-- What holds of every state that reset, cycles and host events can reach. -/
structure State.Inv (s : State) : Prop where
  /-- The configuration is legal (R7). -/
  cfg_legal : s.cfg.legal = true
  /-- RAM is in canonical form. -/
  ram_wf : Memory.wf s.ram = true
  /-- RAM lists only bytes that exist (R35). -/
  ram_within : Memory.within s.cfg.ramSize s.ram = true
  /-- ROM is in canonical form. -/
  rom_wf : Memory.wf s.rom = true
  /-- ROM lists only bytes that exist (R35). -/
  rom_within : Memory.within s.cfg.romSize s.rom = true
  /-- `FAULT` is empty or reports a fault that can happen (R170). -/
  fault_possible : s.fault.possible s.cfg = true
  /-- The slots that are no registers hold their reset value (R20, R21). -/
  unused_regs : ∀ i : RegIdx, s.cfg.nregs ≤ i.val → s.reg i = 0#8

/-! ## Frames -/

/-- Register `i` exists on this chip (R21). -/
abbrev RegExists (s : State) (i : RegIdx) : Prop := i.val < s.cfg.nregs

/-- Every general register is unchanged. -/
def SameRegs (s t : State) : Prop := ∀ j : RegIdx, t.reg j = s.reg j

/-- Every general register but `d` is unchanged. -/
def SameRegsExcept (d : RegIdx) (s t : State) : Prop := ∀ j : RegIdx, j ≠ d → t.reg j = s.reg j

/-- All sixteen flag bits are unchanged. -/
def SameFlags (s t : State) : Prop := ∀ i : FlagIdx, getFlag t.flags i = getFlag s.flags i

/-- Every flag bit whose index is not listed is unchanged. -/
def SameFlagsExcept (l : List FlagIdx) (s t : State) : Prop :=
  ∀ i : FlagIdx, i ∉ l → getFlag t.flags i = getFlag s.flags i

/-- Every byte of RAM reads as before. -/
def SameRam (s t : State) : Prop := ∀ a : Nat, Memory.read t.ram a = Memory.read s.ram a

/-- Every byte of RAM but the one at `a` reads as before. -/
def SameRamExcept (a : Nat) (s t : State) : Prop :=
  ∀ b : Nat, b ≠ a → Memory.read t.ram b = Memory.read s.ram b

/-- Every byte of ROM reads as before. -/
def SameRom (s t : State) : Prop := ∀ a : Nat, Memory.read t.rom a = Memory.read s.rom a

/-- What no faultless cycle changes: the configuration, `FAULT`, `RUN` and every byte of ROM. -/
def SameControl (s t : State) : Prop :=
  t.cfg = s.cfg ∧ t.fault = s.fault ∧ t.run = s.run ∧ SameRom s t

/-- Taking a fault, as R176 to R178 describe it, in a cycle that began in `s` and ended in `t`: `FAULT`
records it, `pc` stays or moves by `n`, a Booted machine is Halted, and nothing else changes. -/
def FaultEntry (s : State) (kind : FaultKind) (space : FaultSpace) (value n : Byte) (t : State) :
    Prop :=
  t.fault = ⟨kind, s.pc, space, value⟩ ∧
  (s.cfg.policy = .halt → t.pc = s.pc) ∧
  (s.cfg.policy = .skip → t.pc = s.pc + n) ∧
  (s.run = .booted → t.run = .halted) ∧
  (s.run ≠ .booted → t.run = s.run) ∧
  SameRegs s t ∧ SameFlags s t ∧ t.sp = s.sp ∧ SameRam s t ∧ SameRom s t ∧ t.cfg = s.cfg

/-- Z, C, V, H and S after an operation with result `R` (R117): Zero and Sign from the result, the
other three as given. -/
def ArithFlagsAre (t : State) (R : Byte) (c v h : Bool) : Prop :=
  t.flag .zero = decide (R = 0#8) ∧ t.flag .carry = c ∧ t.flag .overflow = v ∧
  t.flag .halfCarry = h ∧ t.flag .sign = R.getLsbD 7

/-- The named flag `f` stands at BitField index `i`, under `mask` of the aggregate: a row of R26's
table. -/
def FlagAt (f : Flag) (i : FlagIdx) (mask : FlagWord) : Prop :=
  ∀ s : State, s.flag f = getFlag s.flags i ∧ s.flag f = decide (s.flags &&& mask ≠ 0#16)

/-- Everything but the named parts is as before: registers but `d`, flags but those listed, `sp`, RAM,
ROM, `FAULT`, `RUN` and the configuration. `pc` is free. -/
def FrameExcept (d : RegIdx) (l : List FlagIdx) (s t : State) : Prop :=
  SameRegsExcept d s t ∧ SameFlagsExcept l s t ∧ t.sp = s.sp ∧ SameRam s t ∧ SameControl s t

/-- An instruction `i` of `n` bytes with register `d` in `hi` and `r` in `lo` takes the bounds faults
of R91: `d` first, then `r`. -/
def TwoRegFaults (i : Instr) (d r : RegIdx) (n : Byte) (s : State) : Prop :=
  (¬ RegExists s d → ∃ t, exec i s = .next t ∧
    FaultEntry s .boundsFault .reg (BitVec.ofNat 8 d.val) n t) ∧
  (RegExists s d → ¬ RegExists s r → ∃ t, exec i s = .next t ∧
    FaultEntry s .boundsFault .reg (BitVec.ofNat 8 r.val) n t)

/-- An instruction `i` of `n` bytes with one register `d`, in `hi`, takes the bounds fault of R91. -/
def OneRegFaults (i : Instr) (d : RegIdx) (n : Byte) (s : State) : Prop :=
  ¬ RegExists s d → ∃ t, exec i s = .next t ∧
    FaultEntry s .boundsFault .reg (BitVec.ofNat 8 d.val) n t

/-- An instruction `i` of `n` bytes with register `d` in `hi` and bit index `b` in `lo` takes the
bounds faults of R91: the register first, then the bit. -/
def RegBitFaults (i : Instr) (d : RegIdx) (b : BitIdx) (n : Byte) (s : State) : Prop :=
  OneRegFaults i d n s ∧
  (RegExists s d → 8 ≤ b.val → ∃ t, exec i s = .next t ∧
    FaultEntry s .boundsFault .bit (BitVec.ofNat 8 b.val) n t)

/-- The data access of instruction `i` of `n` bytes at address `a` is outside RAM, and the bounds
fault of R53 is taken. -/
def DataFaults (i : Instr) (a n : Byte) (s : State) : Prop :=
  s.cfg.ramSize ≤ a.toNat → ∃ t, exec i s = .next t ∧ FaultEntry s .boundsFault .ram a n t

/-! ## The spec's tables over all instructions -/

/-- The destination register, the one general register an instruction may write (R22). -/
def destReg : Instr → Option RegIdx
  | .add d _ | .adc d _ | .sub d _ | .sbc d _ | .and d _ | .asr d => some d
  | .bld d _ | .ldi d _ | .mov d _ | .ld d _ | .pop d => some d
  | .nop | .bset _ | .bclr _ | .bst _ _ | .brbs _ _ | .brbc _ _ | .jmp _ | .call _ | .ret => none
  | .st _ _ | .push _ => none

/-- The flags an instruction may write (R27). -/
def writtenFlags : Instr → List FlagIdx
  | .add _ _ | .adc _ _ | .sub _ _ | .sbc _ _ => [0, 1, 2, 5, 6]
  | .and _ _ => [0, 6]
  | .asr _ => [0, 1, 6]
  | .bst _ _ => [8]
  | .bset f | .bclr f => [f]
  | .bld _ _ | .brbs _ _ | .brbc _ _ | .jmp _ | .call _ | .ret | .nop => []
  | .ldi _ _ | .mov _ _ | .ld _ _ | .st _ _ | .push _ | .pop _ => []

/-- The flags an instruction reads (R28). -/
def readFlags : Instr → List FlagIdx
  | .adc _ _ | .sbc _ _ => [1]
  | .bld _ _ => [8]
  | .brbs f _ | .brbc f _ => [f]
  | .add _ _ | .sub _ _ | .and _ _ | .asr _ | .bset _ | .bclr _ | .bst _ _ => []
  | .jmp _ | .call _ | .ret | .nop => []
  | .ldi _ _ | .mov _ _ | .ld _ _ | .st _ _ | .push _ | .pop _ => []

/-- The instruction is one of the four that use the stack (R30). -/
def usesStack : Instr → Bool
  | .push _ | .pop _ | .call _ | .ret => true
  | .add _ _ | .adc _ _ | .sub _ _ | .sbc _ _ | .and _ _ | .asr _ => false
  | .bset _ | .bclr _ | .bst _ _ | .bld _ _ | .brbs _ _ | .brbc _ _ | .jmp _ | .nop => false
  | .ldi _ _ | .mov _ _ | .ld _ _ | .st _ _ => false

/-- The data-space address an instruction writes (R54). -/
def storeAddr (s : State) : Instr → Option Byte
  | .st d _ => some (s.reg d)
  | .push _ | .call _ => some (s.sp - 1)
  | .add _ _ | .adc _ _ | .sub _ _ | .sbc _ _ | .and _ _ | .asr _ => none
  | .bset _ | .bclr _ | .bst _ _ | .bld _ _ | .brbs _ _ | .brbc _ _ | .jmp _ | .ret | .nop => none
  | .ldi _ _ | .mov _ _ | .ld _ _ | .pop _ => none

/-- The data-space address an instruction reads (R54). -/
def loadAddr (s : State) : Instr → Option Byte
  | .ld _ r => some (s.reg r)
  | .pop _ | .ret => some s.sp
  | .add _ _ | .adc _ _ | .sub _ _ | .sbc _ _ | .and _ _ | .asr _ => none
  | .bset _ | .bclr _ | .bst _ _ | .bld _ _ | .brbs _ _ | .brbc _ _ | .jmp _ | .call _ | .nop => none
  | .ldi _ _ | .mov _ _ | .st _ _ | .push _ => none

/-- The first range check of R91 that the instruction fails: register in `hi`, register in `lo`, bit
index in `lo`. -/
def rangeFault (c : Config) (i : Instr) : Option CycleFault :=
  (i.hiReg.bind fun d => if d.val < c.nregs then none else some (.reg d)) <|>
  (i.loReg.bind fun r => if r.val < c.nregs then none else some (.reg r)) <|>
  (i.bitOperand.bind fun b => if b.val < 8 then none else some (.bit b))

/-- The bounds check of the instruction's data access (R175 (8)). -/
def dataFault (s : State) (i : Instr) : Option CycleFault :=
  (storeAddr s i <|> loadAddr s i).bind fun a => if a.toNat < s.cfg.ramSize then none else some (.ram a)

/-- The fault the execution of `i` raises in `s`, if any: R175 (5) to (8), in that order. -/
def execFault (s : State) (i : Instr) : Option CycleFault := rangeFault s.cfg i <|> dataFault s i

/-- The opcode values of R88 that have no table entry. -/
def illegalOpcode (b : Byte) : Bool :=
  decide (0x01 ≤ b.toNat ∧ b.toNat ≤ 0x0F ∨ 0x16 ≤ b.toNat ∧ b.toNat ≤ 0x1F ∨
    0x24 ≤ b.toNat ∧ b.toNat ≤ 0x2F ∨ 0x35 ≤ b.toNat ∧ b.toNat ≤ 0x3F ∨ 0x46 ≤ b.toNat)

/-- The rows whose low nibble R87 marks `lo=ignored`. -/
def ignoresLo (o : Opcode) : Prop :=
  o = .asr ∨ o = .bset ∨ o = .bclr ∨ o = .brbs ∨ o = .brbc ∨ o = .ldi ∨ o = .push ∨ o = .pop

/-! ## Safe runs -/

/-- The fault the next cycle from `s` raises, if any (R175). -/
def cycleFault (s : State) : Option CycleFault :=
  match s.fetch with
  | .error f => some f
  | .ok i => execFault s i

/-- None of the next `k` cycles from `s` raises a fault (R195: a faulted end is never a completed
run). -/
def SafeFor : Nat → State → Prop
  | 0, _ => True
  | k + 1, s => cycleFault s = none ∧ ∀ t, step s = .next t → SafeFor k t

end Sys2Proof.Machine
end

