-- ==== Sys2Proof/Certificates/Slice0/Obligations.lean ====
section
/-! DEFINITION. The statements for the provers. Many of the rules they formalise are decisions of the
spec itself (92_eei_decisions.md); the numbers D<n> stand in the docstrings where they matter. -/

open Sys2Proof Sys2Proof.Machine

/-! ## Encoding -/

/-- Words written out from the table of 30_encoding.md R87 and the vectors of 95_test_vectors.md. -/
def Obligations.SpecWordsDecodeAsTheTableSays : Prop :=
  decode [0x00, 0x10] = .ok (.nop, [0x10]) ∧
  decode [0x10, 0x01] = .ok (.add 0 1, []) ∧
  decode [0x22, 0x37] = .ok (.bst 3 7, []) ∧
  decode [0x31, 0x10, 0xF0] = .ok (.brbc 1 0xF0, []) ∧
  decode [0x43, 0x10] = .ok (.st 1 0, []) ∧
  decode [0x40, 0x3F, 0x99] = .ok (.ldi 3 0x99, []) ∧
  decode [0x44, 0x20] = .ok (.push 2, []) ∧
  decode [0x33, 0x20] = .ok (.call 0x20, []) ∧
  decode [0xFF, 0x00, 0x00] = .error (.illegalOpcode 0xFF) ∧
  decode [0x30, 0x10] = .error .truncated

/-- Every instruction, with every operand value, is what its own bytes decode to, whatever follows. -/
def Obligations.DecodeOfEncodeGivesBackTheInstruction : Prop :=
  ∀ (i : Instr) (rest : List Byte), decode (encode i ++ rest) = .ok (i, rest)

/-- R83: the opcode byte alone gives the length, 1 for format N, 2 for P and K, 3 for PK, and the
decoder takes exactly that many bytes. -/
def Obligations.DecodeTakesTheLengthOfTheOpcode : Prop :=
  ∀ (bs rest : List Byte) (i : Instr), decode bs = .ok (i, rest) →
    ∃ (o : Opcode) (b0 : Byte), bs[0]? = some b0 ∧ Opcode.ofByte b0 = some o ∧ i.opcode = o ∧
      (o.format = .n → ∃ c1, bs = c1 :: rest) ∧
      (o.format = .p ∨ o.format = .k → ∃ c1 c2, bs = c1 :: c2 :: rest) ∧
      (o.format = .pk → ∃ c1 c2 c3, bs = c1 :: c2 :: c3 :: rest)

/-- R89 (D11): an ignored low nibble changes nothing, and every other bit of an encoding is read. -/
def Obligations.ExactlyTheIgnoredNibbleIsNotRead : Prop :=
  (∀ (o : Opcode) (b1 b1' : Byte) (rest : List Byte), ignoresLo o → hiNibble b1 = hiNibble b1' →
    decode (o.byte :: b1 :: rest) = decode (o.byte :: b1' :: rest)) ∧
  (∀ (bs bs' : List Byte) (i : Instr), decode bs = .ok (i, []) → decode bs' = .ok (i, []) →
    bs.length = bs'.length ∧
    (∀ n, n ≠ 1 ∨ ¬ ignoresLo i.opcode → bs[n]? = bs'[n]?) ∧
    (bs[1]?).map hiNibble = (bs'[1]?).map hiNibble)

/-- R88, R172: exactly the 234 listed opcode values are illegal, whatever bytes follow; the cycle
records `IllegalInstruction(opcode)` and changes nothing else but `pc` under `skip` and `RUN`. -/
def Obligations.ExactlyTheListedOpcodesAreIllegal : Prop :=
  ∀ (s : State) (op : Byte), s.cfg.legal = true →
    (s.fetch = .error (.illegal op) ↔ s.ifetch s.pc = .ok op ∧ illegalOpcode op = true) ∧
    (s.ifetch s.pc = .ok op → illegalOpcode op = true →
      ∃ t, step s = .next t ∧ FaultEntry s .illegalInstruction .none op 1 t)

/-! ## The cycle -/

/-- When the bytes at `pc`, taken at ascending wrapping addresses, decode to `i`, the cycle is the
execution of `i` in the state with `pc` still at `i`: the step adds nothing around it. -/
def Obligations.StepRunsTheDecodedInstruction : Prop :=
  ∀ (s : State) (bs rest : List Byte) (i : Instr), s.cfg.legal = true →
    (∀ n b, bs[n]? = some b → s.ifetch (s.pc + BitVec.ofNat 8 n) = .ok b) →
    decode bs = .ok (i, rest) → step s = exec i s

/-- R85: the opcode byte, then decode, then the operand bytes at wrapping addresses, each fetch
bounds-checked; the first failing fetch is the fault, and `skip` passes 1 byte if the opcode itself was
not fetched and the instruction's length otherwise (R177). -/
def Obligations.FetchFaultsInOrder : Prop :=
  ∀ (s : State), s.cfg.legal = true →
    (imemSize s.cfg ≤ s.pc.toNat →
      ∃ t, step s = .next t ∧ FaultEntry s .boundsFault .imem s.pc 1 t) ∧
    (∀ op, s.ifetch s.pc = .ok op → Opcode.ofByte op = none →
      ∃ t, step s = .next t ∧ FaultEntry s .illegalInstruction .none op 1 t) ∧
    (∀ op o, s.ifetch s.pc = .ok op → Opcode.ofByte op = some o → 2 ≤ o.len →
      imemSize s.cfg ≤ (s.pc + 1).toNat →
      ∃ t, step s = .next t ∧
        FaultEntry s .boundsFault .imem (s.pc + 1) (BitVec.ofNat 8 o.len) t) ∧
    (∀ op o, s.ifetch s.pc = .ok op → Opcode.ofByte op = some o → o.len = 3 →
      (s.pc + 1).toNat < imemSize s.cfg → imemSize s.cfg ≤ (s.pc + 2).toNat →
      ∃ t, step s = .next t ∧ FaultEntry s .boundsFault .imem (s.pc + 2) 3 t) ∧
    (∀ op o, s.ifetch s.pc = .ok op → Opcode.ofByte op = some o →
      (∀ n, n < o.len → (s.pc + BitVec.ofNat 8 n).toNat < imemSize s.cfg) →
      ∃ i, s.fetch = .ok i ∧ i.opcode = o)

/-- R7, and the model's own way of saying it (log entry 9): outside the legal values there is no
machine and no cycle. -/
def Obligations.IllegalConfigurationIsRefused : Prop :=
  ∀ (c : Config) (s : State),
    (c.legal = true ↔
      1 ≤ c.nregs ∧ c.nregs ≤ 16 ∧ 1 ≤ c.ramSize ∧ c.ramSize ≤ 256 ∧ c.romSize ≤ 256) ∧
    (c.legal = false → construct c = .refused .invalidConfiguration) ∧
    (s.cfg.legal = false → step s = .refused .invalidConfiguration)

/-- 93_implementation_defined.md: "every instruction is a total function of the state, and every
out-of-range index is a defined fault": no instruction and no cycle of a legal machine stops. -/
def Obligations.EveryCycleGivesANextState : Prop :=
  (∀ (i : Instr) (s : State), ∃ t, exec i s = .next t) ∧
  (∀ (s : State), s.cfg.legal = true → ∃ t, step s = .next t)

/-- The first fault of R175's order, if there is one, is recorded as R176 to R178 say, with the skip
length of R177, and nothing else changes; if there is none, `FAULT`, `RUN`, ROM and the configuration
are untouched. -/
def Obligations.CycleFaultsExactlyByThePriorityOrder : Prop :=
  ∀ (s : State), s.cfg.legal = true →
    (∀ f, cycleFault s = some f →
      ∃ t n, step s = .next t ∧ FaultEntry s f.kind f.space f.value n t ∧
        (∀ op o, s.ifetch s.pc = .ok op → Opcode.ofByte op = some o → n = BitVec.ofNat 8 o.len) ∧
        ((∀ op o, s.ifetch s.pc = .ok op → Opcode.ofByte op ≠ some o) → n = 1)) ∧
    (cycleFault s = none → ∃ t, step s = .next t ∧ SameControl s t)

/-- R91, R173, R175 (5) to (8): an instruction's execution faults exactly when one of its register
fields, its bit index or its data address is out of range, in that order. -/
def Obligations.ExecutionFaultsExactlyOnOutOfRangeOperands : Prop :=
  ∀ (i : Instr) (s : State),
    (∀ f, execFault s i = some f → ∃ t, exec i s = .next t ∧
      FaultEntry s f.kind f.space f.value (BitVec.ofNat 8 i.opcode.len) t) ∧
    (execFault s i = none → ∃ t, exec i s = .next t ∧ SameControl s t) ∧
    (i.wellFormed s.cfg = true ↔ rangeFault s.cfg i = none)

/-! ## Invariants -/

/-- Every cycle keeps the machine's invariant: legal configuration, canonical memories that list only
existing bytes, a fault register that reports a possible fault, unused slots at their reset value. -/
def Obligations.EveryCycleKeepsInv : Prop :=
  ∀ (s t : State), s.Inv → step s = .next t → t.Inv

/-- The invariant holds right after construction, and in the reset state of the reference chip. -/
def Obligations.ResetMeetsInv : Prop :=
  (∀ c : Config, c.legal = true → (State.resetWith c).Inv) ∧ State.reset.Inv

/-- Whatever the host does between cycles, in any order, the invariant is kept. -/
def Obligations.EveryRunOfHostEventsKeepsInv : Prop :=
  ∀ (es : List HostEvent) (s t : State), s.Inv → runEvents es s = .next t → t.Inv

/-- R38: what every piece of state holds after reset, in every legal configuration. -/
def Obligations.ResetZeroesEveryPieceOfState : Prop :=
  ∀ c : Config, c.legal = true → ∃ t, construct c = .next t ∧
    t.cfg = c ∧ (∀ i : RegIdx, t.reg i = 0) ∧ t.pc = 0 ∧ t.sp = 0 ∧
    (∀ i : FlagIdx, getFlag t.flags i = false) ∧
    (∀ a, Memory.read t.ram a = 0) ∧ (∀ a, Memory.read t.rom a = 0) ∧
    t.fault = ⟨.none, 0, .none, 0⟩ ∧ t.run = .constructed

/-! ## Whole-machine rules -/

/-- "An instruction only touches the flags listed for it" (R13, and the table of R27). -/
def Obligations.OnlyTheDeclaredFlagsChange : Prop :=
  ∀ (i : Instr) (s t : State), exec i s = .next t → SameFlagsExcept (writtenFlags i) s t

/-- Registers are written only as destinations (10_state.md, section 1). -/
def Obligations.OnlyTheDestinationRegisterChanges : Prop :=
  ∀ (i : Instr) (s t : State), exec i s = .next t →
    ∀ j : RegIdx, destReg i ≠ some j → t.reg j = s.reg j

/-- "No cycle corrupts storage outside the bytes its instruction is documented to touch": of RAM only
the byte at the computed store address, of ROM nothing. -/
def Obligations.OnlyTheStoredByteOfMemoryChanges : Prop :=
  ∀ (i : Instr) (s t : State), Memory.wf s.ram = true → exec i s = .next t →
    (∀ a : Nat, (∀ b, storeAddr s i = some b → a ≠ b.toNat) →
      Memory.read t.ram a = Memory.read s.ram a) ∧
    SameRom s t ∧ t.cfg = s.cfg

/-- `sp` is written only by PUSH, POP, CALL and RET, by one step at a time, modulo 256 (R30, R159). -/
def Obligations.OnlyStackInstructionsMoveTheStackPointer : Prop :=
  ∀ (i : Instr) (s t : State), exec i s = .next t →
    (usesStack i = false → t.sp = s.sp) ∧ (t.sp = s.sp ∨ t.sp = s.sp - 1 ∨ t.sp = s.sp + 1)

/-- `RUN` is changed by no instruction; a cycle changes it only from Booted to Halted, by a fault. -/
def Obligations.OnlyAFaultStopsABootedMachine : Prop :=
  ∀ (s t : State), step s = .next t →
    (t.run = s.run ∧ (s.run = .booted → cycleFault s = none)) ∨
    (s.run = .booted ∧ t.run = .halted ∧ cycleFault s ≠ none)

/-- "When `ROM_SIZE > 0` no instruction can write the instruction space at all." -/
def Obligations.NoCycleWritesTheInstructionSpaceOfARomChip : Prop :=
  ∀ (s t : State), 0 < s.cfg.romSize → step s = .next t → ∀ a : Byte, t.ifetch a = s.ifetch a

/-- With no ROM a stored byte is what the next fetch of its address sees: ST, PUSH and CALL. -/
def Obligations.StoredBytesAreFetchedNext : Prop :=
  ∀ (s t : State), s.cfg.romSize = 0 → Memory.wf s.ram = true →
    (∀ d r : RegIdx, execFault s (.st d r) = none → exec (.st d r) s = .next t →
      t.ifetch (s.reg d) = .ok (s.reg r)) ∧
    (∀ r : RegIdx, execFault s (.push r) = none → exec (.push r) s = .next t →
      t.ifetch (s.sp - 1) = .ok (s.reg r)) ∧
    (∀ k : Byte, execFault s (.call k) = none → exec (.call k) s = .next t →
      t.ifetch (s.sp - 1) = .ok (s.pc + 2))

/-- No instruction reads ROM as data: with any other ROM contents it does the same (R53). -/
def Obligations.NoInstructionReadsRomAsData : Prop :=
  ∀ (i : Instr) (s t : State) (m : Memory), exec i s = .next t →
    exec i (s.setRom m) = .next (t.setRom m)

/-- R28, and "A cycle that raises a fault writes no flag" (R27): ADC and SBC read `F.C`, BLD reads `F.T`,
BRBS and BRBC read the flag they name, and no other instruction reads any flag. From any flag contents
that agree on the flags the instruction reads, everything but the flag register ends the same; a flag
it writes ends the same, and every other flag keeps what it held. -/
def Obligations.OnlyFiveInstructionsReadAFlag : Prop :=
  ∀ (i : Instr) (s t : State) (w : FlagWord),
    (∀ j ∈ readFlags i, getFlag w j = getFlag s.flags j) → exec i s = .next t →
    ∃ w', exec i (s.setFlags w) = .next (t.setFlags w') ∧
      (execFault s i = none →
        ∀ j, getFlag w' j = if j ∈ writtenFlags i then getFlag t.flags j else getFlag w j) ∧
      (execFault s i ≠ none → ∀ j, getFlag w' j = getFlag w j)

/-- `FAULT` and `RUN` are read by no instruction (R31, R32): from any other contents a faultless
execution ends the same and keeps those contents; a faulting one ends the same, with the same `FAULT`,
but for `RUN`, which the fault takes from Booted to Halted and else keeps (R176). -/
def Obligations.NoInstructionReadsFaultOrRun : Prop :=
  ∀ (i : Instr) (s t : State) (f : FaultReg) (r : RunState), exec i s = .next t →
    (execFault s i = none →
      exec i { s with fault := f, run := r } = .next { t with fault := f, run := r }) ∧
    (execFault s i ≠ none →
      exec i { s with fault := f, run := r } =
        .next { t with run := if r = .booted then .halted else r })

/-! ## Arithmetic, logic and shift -/

/-- R111: ADD. -/
def Obligations.AddSumsAndSetsFiveFlags : Prop :=
  ∀ (d r : RegIdx) (s : State),
    decode [0x10, nibblePair d r] = .ok (.add d r, []) ∧
    (RegExists s d → RegExists s r → ∃ t, exec (.add d r) s = .next t ∧
      (t.reg d).toNat = ((s.reg d).toNat + (s.reg r).toNat) % 256 ∧
      ArithFlagsAre t (t.reg d)
        (decide ((s.reg d).toNat + (s.reg r).toNat > 255))
        (decide ((s.reg d).toInt + (s.reg r).toInt < -128 ∨
          127 < (s.reg d).toInt + (s.reg r).toInt))
        (decide ((s.reg d).toNat % 16 + (s.reg r).toNat % 16 > 15)) ∧
      t.pc = s.pc + 2 ∧ FrameExcept d [0, 1, 2, 5, 6] s t) ∧
    TwoRegFaults (.add d r) d r 2 s

/-- R112: ADC; the carry in is `F.C` before the cycle. -/
def Obligations.AdcSumsWithCarryAndSetsFiveFlags : Prop :=
  ∀ (d r : RegIdx) (s : State),
    decode [0x11, nibblePair d r] = .ok (.adc d r, []) ∧
    (RegExists s d → RegExists s r → ∃ t, exec (.adc d r) s = .next t ∧
      (t.reg d).toNat =
        ((s.reg d).toNat + (s.reg r).toNat + (s.flag .carry).toNat) % 256 ∧
      ArithFlagsAre t (t.reg d)
        (decide ((s.reg d).toNat + (s.reg r).toNat + (s.flag .carry).toNat > 255))
        (decide ((s.reg d).toInt + (s.reg r).toInt + ((s.flag .carry).toNat : Int) < -128 ∨
          127 < (s.reg d).toInt + (s.reg r).toInt + ((s.flag .carry).toNat : Int)))
        (decide ((s.reg d).toNat % 16 + (s.reg r).toNat % 16 + (s.flag .carry).toNat > 15)) ∧
      t.pc = s.pc + 2 ∧ FrameExcept d [0, 1, 2, 5, 6] s t) ∧
    TwoRegFaults (.adc d r) d r 2 s

/-- R113: SUB; C is the borrow. -/
def Obligations.SubSubtractsAndSetsFiveFlags : Prop :=
  ∀ (d r : RegIdx) (s : State),
    decode [0x12, nibblePair d r] = .ok (.sub d r, []) ∧
    (RegExists s d → RegExists s r → ∃ t, exec (.sub d r) s = .next t ∧
      ((t.reg d).toNat : Int) = (((s.reg d).toNat : Int) - (s.reg r).toNat) % 256 ∧
      ArithFlagsAre t (t.reg d)
        (decide ((s.reg d).toNat < (s.reg r).toNat))
        (decide ((s.reg d).toInt - (s.reg r).toInt < -128 ∨
          127 < (s.reg d).toInt - (s.reg r).toInt))
        (decide ((s.reg d).toNat % 16 < (s.reg r).toNat % 16)) ∧
      t.pc = s.pc + 2 ∧ FrameExcept d [0, 1, 2, 5, 6] s t) ∧
    TwoRegFaults (.sub d r) d r 2 s

/-- R114: SBC; the borrow in is `F.C` before the cycle. -/
def Obligations.SbcSubtractsWithBorrowAndSetsFiveFlags : Prop :=
  ∀ (d r : RegIdx) (s : State),
    decode [0x13, nibblePair d r] = .ok (.sbc d r, []) ∧
    (RegExists s d → RegExists s r → ∃ t, exec (.sbc d r) s = .next t ∧
      ((t.reg d).toNat : Int) =
        (((s.reg d).toNat : Int) - (s.reg r).toNat - (s.flag .carry).toNat) % 256 ∧
      ArithFlagsAre t (t.reg d)
        (decide ((s.reg d).toNat < (s.reg r).toNat + (s.flag .carry).toNat))
        (decide ((s.reg d).toInt - (s.reg r).toInt - ((s.flag .carry).toNat : Int) < -128 ∨
          127 < (s.reg d).toInt - (s.reg r).toInt - ((s.flag .carry).toNat : Int)))
        (decide ((s.reg d).toNat % 16 < (s.reg r).toNat % 16 + (s.flag .carry).toNat)) ∧
      t.pc = s.pc + 2 ∧ FrameExcept d [0, 1, 2, 5, 6] s t) ∧
    TwoRegFaults (.sbc d r) d r 2 s

/-- R115: AND; C, V and H are left alone (D12). -/
def Obligations.AndMasksBitByBit : Prop :=
  ∀ (d r : RegIdx) (s : State),
    decode [0x14, nibblePair d r] = .ok (.and d r, []) ∧
    (RegExists s d → RegExists s r → ∃ t, exec (.and d r) s = .next t ∧
      (∀ j, j < 8 → (t.reg d).getLsbD j = ((s.reg d).getLsbD j && (s.reg r).getLsbD j)) ∧
      t.flag .zero = decide (t.reg d = 0#8) ∧ t.flag .sign = (t.reg d).getLsbD 7 ∧
      t.pc = s.pc + 2 ∧ FrameExcept d [0, 6] s t) ∧
    TwoRegFaults (.and d r) d r 2 s

/-- R116: ASR; V and H are left alone (D12). -/
def Obligations.AsrShiftsRightKeepingTheSign : Prop :=
  ∀ (d : RegIdx) (s : State),
    (∀ lo, decode [0x15, nibblePair d lo] = .ok (.asr d, [])) ∧
    (RegExists s d → ∃ t, exec (.asr d) s = .next t ∧
      (t.reg d).getLsbD 7 = (s.reg d).getLsbD 7 ∧
      (∀ j, j < 7 → (t.reg d).getLsbD j = (s.reg d).getLsbD (j + 1)) ∧
      t.flag .carry = (s.reg d).getLsbD 0 ∧
      t.flag .zero = decide (t.reg d = 0#8) ∧ t.flag .sign = (t.reg d).getLsbD 7 ∧
      t.pc = s.pc + 2 ∧ FrameExcept d [0, 1, 6] s t) ∧
    OneRegFaults (.asr d) d 2 s

/-- R118: the bit formulas for C, V and H agree with the range definitions the model computes from. -/
def Obligations.BitFormulasGiveCarryOverflowHalfCarry : Prop :=
  ∀ (a b : Byte) (cin : Bool),
    (let R := (addResult a b cin).value
     let e := (a &&& b) ||| (a &&& ~~~R) ||| (b &&& ~~~R)
     (addResult a b cin).c = e.getLsbD 7 ∧ (addResult a b cin).h = e.getLsbD 3 ∧
     ((addResult a b cin).v = true ↔
       a.getLsbD 7 = b.getLsbD 7 ∧ R.getLsbD 7 ≠ a.getLsbD 7)) ∧
    (let R := (subResult a b cin).value
     let e := (~~~a &&& b) ||| (b &&& R) ||| (R &&& ~~~a)
     (subResult a b cin).c = e.getLsbD 7 ∧ (subResult a b cin).h = e.getLsbD 3 ∧
     ((subResult a b cin).v = true ↔
       a.getLsbD 7 ≠ b.getLsbD 7 ∧ R.getLsbD 7 ≠ a.getLsbD 7))

/-! ## Bits -/

/-- R131: BSET writes exactly one bit of the flag register, any of the sixteen. -/
def Obligations.BsetSetsExactlyOneFlag : Prop :=
  ∀ (f : FlagIdx) (s : State),
    (∀ lo, decode [0x20, nibblePair f lo] = .ok (.bset f, [])) ∧
    ∃ t, exec (.bset f) s = .next t ∧
    getFlag t.flags f = true ∧ SameFlagsExcept [f] s t ∧ t.pc = s.pc + 2 ∧
    SameRegs s t ∧ t.sp = s.sp ∧ SameRam s t ∧ SameControl s t

/-- R132: BCLR clears exactly one bit of the flag register. -/
def Obligations.BclrClearsExactlyOneFlag : Prop :=
  ∀ (f : FlagIdx) (s : State),
    (∀ lo, decode [0x21, nibblePair f lo] = .ok (.bclr f, [])) ∧
    ∃ t, exec (.bclr f) s = .next t ∧
    getFlag t.flags f = false ∧ SameFlagsExcept [f] s t ∧ t.pc = s.pc + 2 ∧
    SameRegs s t ∧ t.sp = s.sp ∧ SameRam s t ∧ SameControl s t

/-- R133: BST copies a register bit, LSB-0, into the Transfer flag. -/
def Obligations.BstCopiesARegisterBitToTransfer : Prop :=
  ∀ (d : RegIdx) (b : BitIdx) (s : State),
    decode [0x22, nibblePair d b] = .ok (.bst d b, []) ∧
    (RegExists s d → b.val < 8 → ∃ t, exec (.bst d b) s = .next t ∧
      t.flag .transfer = (s.reg d).getLsbD b.val ∧ SameFlagsExcept [8] s t ∧ t.pc = s.pc + 2 ∧
      SameRegs s t ∧ t.sp = s.sp ∧ SameRam s t ∧ SameControl s t) ∧
    RegBitFaults (.bst d b) d b 2 s

/-- R134: BLD copies the Transfer flag into a register bit; the other seven bits are kept. -/
def Obligations.BldCopiesTransferToARegisterBit : Prop :=
  ∀ (d : RegIdx) (b : BitIdx) (s : State),
    decode [0x23, nibblePair d b] = .ok (.bld d b, []) ∧
    (RegExists s d → b.val < 8 → ∃ t, exec (.bld d b) s = .next t ∧
      (t.reg d).getLsbD b.val = s.flag .transfer ∧
      (∀ j, j < 8 → j ≠ b.val → (t.reg d).getLsbD j = (s.reg d).getLsbD j) ∧
      t.pc = s.pc + 2 ∧ FrameExcept d [] s t) ∧
    RegBitFaults (.bld d b) d b 2 s

/-- BST of a bit and then BLD of the same bit leaves the register as it was (95_test_vectors.md 2.2). -/
def Obligations.BstThenBldRestoresTheRegister : Prop :=
  ∀ (d : RegIdx) (b : BitIdx) (s : State), RegExists s d → b.val < 8 →
    ∃ t u, exec (.bst d b) s = .next t ∧ exec (.bld d b) t = .next u ∧
      SameRegs s u ∧ u.pc = s.pc + 4 ∧ SameFlagsExcept [8] s u

/-- R10, R26 (D5, D6): flag index `i` is bit `128 >> (i % 8)` of unit `i >> 3`; the sixteen bits, index
0 the most significant, make up the aggregate `FLAGS`; and the nine named flags stand at the indices
and masks of R26's table. -/
def Obligations.FlagsAggregateIsMostSignificantFirst : Prop :=
  (∀ w : FlagWord, w.toNat =
    ((List.finRange 16).map (fun i : FlagIdx => (getFlag w i).toNat * 2 ^ (15 - i.val))).sum) ∧
  (∀ (unit0 unit1 : Byte) (i : FlagIdx), getFlag (unit0 ++ unit1) i =
    decide ((if i.val / 8 = 0 then unit0 else unit1) &&& (128#8 >>> (i.val % 8)) ≠ 0#8)) ∧
  FlagAt .zero 0 0x8000 ∧ FlagAt .carry 1 0x4000 ∧ FlagAt .overflow 2 0x2000 ∧
  FlagAt .parity 3 0x1000 ∧ FlagAt .trap 4 0x0800 ∧ FlagAt .halfCarry 5 0x0400 ∧
  FlagAt .sign 6 0x0200 ∧ FlagAt .interruptEnable 7 0x0100 ∧ FlagAt .transfer 8 0x0080

/-! ## Control transfer -/

/-- R140: BRBS; the offset is signed and relative to the branch's own address (D18). -/
def Obligations.BrbsBranchesWhenTheFlagIsSet : Prop :=
  ∀ (f : FlagIdx) (k : Byte) (s : State),
    (∀ lo, decode [0x30, nibblePair f lo, k] = .ok (.brbs f k, [])) ∧
    ∃ t, exec (.brbs f k) s = .next t ∧
    (getFlag s.flags f = true → (t.pc.toNat : Int) = ((s.pc.toNat : Int) + k.toInt) % 256) ∧
    (getFlag s.flags f = false → t.pc = s.pc + 3) ∧
    SameRegs s t ∧ SameFlags s t ∧ t.sp = s.sp ∧ SameRam s t ∧ SameControl s t

/-- R141: BRBC, with the test inverted. -/
def Obligations.BrbcBranchesWhenTheFlagIsClear : Prop :=
  ∀ (f : FlagIdx) (k : Byte) (s : State),
    (∀ lo, decode [0x31, nibblePair f lo, k] = .ok (.brbc f k, [])) ∧
    ∃ t, exec (.brbc f k) s = .next t ∧
    (getFlag s.flags f = false → (t.pc.toNat : Int) = ((s.pc.toNat : Int) + k.toInt) % 256) ∧
    (getFlag s.flags f = true → t.pc = s.pc + 3) ∧
    SameRegs s t ∧ SameFlags s t ∧ t.sp = s.sp ∧ SameRam s t ∧ SameControl s t

/-- R142: JMP. -/
def Obligations.JmpGoesToTheAbsoluteAddress : Prop :=
  ∀ (k : Byte) (s : State),
    decode [0x32, k] = .ok (.jmp k, []) ∧
    ∃ t, exec (.jmp k) s = .next t ∧ t.pc = k ∧
    SameRegs s t ∧ SameFlags s t ∧ t.sp = s.sp ∧ SameRam s t ∧ SameControl s t

/-- R143: CALL pushes the address of the next instruction and jumps. -/
def Obligations.CallPushesTheReturnAddressAndJumps : Prop :=
  ∀ (k : Byte) (s : State),
    decode [0x33, k] = .ok (.call k, []) ∧
    ((s.sp - 1).toNat < s.cfg.ramSize → ∃ t, exec (.call k) s = .next t ∧
      t.sp = s.sp - 1 ∧ t.pc = k ∧
      (Memory.wf s.ram = true → Memory.read t.ram (s.sp - 1).toNat = s.pc + 2 ∧
        SameRamExcept (s.sp - 1).toNat s t) ∧
      SameRegs s t ∧ SameFlags s t ∧ SameControl s t) ∧
    DataFaults (.call k) (s.sp - 1) 2 s

/-- R144: RET pops `pc`. -/
def Obligations.RetPopsTheProgramCounter : Prop :=
  ∀ (s : State),
    decode [0x34] = .ok (.ret, []) ∧
    (s.sp.toNat < s.cfg.ramSize → ∃ t, exec .ret s = .next t ∧
      t.pc = Memory.read s.ram s.sp.toNat ∧ t.sp = s.sp + 1 ∧
      SameRegs s t ∧ SameFlags s t ∧ SameRam s t ∧ SameControl s t) ∧
    DataFaults .ret s.sp 1 s

/-- R145: NOP. -/
def Obligations.NopOnlyAdvances : Prop :=
  ∀ (s : State),
    decode [0x00] = .ok (.nop, []) ∧
    ∃ t, exec .nop s = .next t ∧ t.pc = s.pc + 1 ∧
    SameRegs s t ∧ SameFlags s t ∧ t.sp = s.sp ∧ SameRam s t ∧ SameControl s t

/-- "CALL then RET restores `sp` and continues at `a0 + 2`; the byte written by CALL stays in RAM."
(95_test_vectors.md 2.3) -/
def Obligations.CallThenRetContinuesAfterTheCall : Prop :=
  ∀ (k : Byte) (s : State), Memory.wf s.ram = true → (s.sp - 1).toNat < s.cfg.ramSize →
    ∃ t u, exec (.call k) s = .next t ∧ t.pc = k ∧ exec .ret t = .next u ∧
      u.pc = s.pc + 2 ∧ u.sp = s.sp ∧ Memory.read u.ram (s.sp - 1).toNat = s.pc + 2 ∧
      SameRamExcept (s.sp - 1).toNat s u ∧ SameRegs s u ∧ SameFlags s u

/-! ## Data movement and stack -/

/-- R155: LDI. -/
def Obligations.LdiLoadsTheConstant : Prop :=
  ∀ (d : RegIdx) (k : Byte) (s : State),
    (∀ lo, decode [0x40, nibblePair d lo, k] = .ok (.ldi d k, [])) ∧
    (RegExists s d → ∃ t, exec (.ldi d k) s = .next t ∧ t.reg d = k ∧
      t.pc = s.pc + 3 ∧ FrameExcept d [] s t) ∧
    OneRegFaults (.ldi d k) d 3 s

/-- R156: MOV. -/
def Obligations.MovCopiesTheRegister : Prop :=
  ∀ (d r : RegIdx) (s : State),
    decode [0x41, nibblePair d r] = .ok (.mov d r, []) ∧
    (RegExists s d → RegExists s r → ∃ t, exec (.mov d r) s = .next t ∧ t.reg d = s.reg r ∧
      t.pc = s.pc + 2 ∧ FrameExcept d [] s t) ∧
    TwoRegFaults (.mov d r) d r 2 s

/-- R157: LD; the pointer is read before the destination is written. -/
def Obligations.LdLoadsTheByteThePointerNames : Prop :=
  ∀ (d r : RegIdx) (s : State),
    decode [0x42, nibblePair d r] = .ok (.ld d r, []) ∧
    (RegExists s d → RegExists s r → (s.reg r).toNat < s.cfg.ramSize →
      ∃ t, exec (.ld d r) s = .next t ∧ t.reg d = Memory.read s.ram (s.reg r).toNat ∧
        t.pc = s.pc + 2 ∧ FrameExcept d [] s t) ∧
    TwoRegFaults (.ld d r) d r 2 s ∧
    (RegExists s d → RegExists s r → DataFaults (.ld d r) (s.reg r) 2 s)

/-- R158: ST. -/
def Obligations.StStoresTheByteAtThePointer : Prop :=
  ∀ (d r : RegIdx) (s : State),
    decode [0x43, nibblePair d r] = .ok (.st d r, []) ∧
    (RegExists s d → RegExists s r → (s.reg d).toNat < s.cfg.ramSize →
      ∃ t, exec (.st d r) s = .next t ∧
        (Memory.wf s.ram = true → Memory.read t.ram (s.reg d).toNat = s.reg r ∧
          SameRamExcept (s.reg d).toNat s t) ∧
        t.pc = s.pc + 2 ∧ t.sp = s.sp ∧ SameRegs s t ∧ SameFlags s t ∧ SameControl s t) ∧
    TwoRegFaults (.st d r) d r 2 s ∧
    (RegExists s d → RegExists s r → DataFaults (.st d r) (s.reg d) 2 s)

/-- R160: PUSH; `sp` is decremented, then the byte is written at the new `sp` (D20). -/
def Obligations.PushStoresBelowTheStackPointer : Prop :=
  ∀ (r : RegIdx) (s : State),
    (∀ lo, decode [0x44, nibblePair r lo] = .ok (.push r, [])) ∧
    (RegExists s r → (s.sp - 1).toNat < s.cfg.ramSize → ∃ t, exec (.push r) s = .next t ∧
      (Memory.wf s.ram = true → Memory.read t.ram (s.sp - 1).toNat = s.reg r ∧
        SameRamExcept (s.sp - 1).toNat s t) ∧
      t.sp = s.sp - 1 ∧ t.pc = s.pc + 2 ∧ SameRegs s t ∧ SameFlags s t ∧ SameControl s t) ∧
    OneRegFaults (.push r) r 2 s ∧
    (RegExists s r → DataFaults (.push r) (s.sp - 1) 2 s)

/-- R161: POP; the byte at `sp` is read, then `sp` is incremented (D20). -/
def Obligations.PopLoadsAtTheStackPointer : Prop :=
  ∀ (d : RegIdx) (s : State),
    (∀ lo, decode [0x45, nibblePair d lo] = .ok (.pop d, [])) ∧
    (RegExists s d → s.sp.toNat < s.cfg.ramSize → ∃ t, exec (.pop d) s = .next t ∧
      t.reg d = Memory.read s.ram s.sp.toNat ∧ t.sp = s.sp + 1 ∧ t.pc = s.pc + 2 ∧
      SameRegsExcept d s t ∧ SameFlags s t ∧ SameRam s t ∧ SameControl s t) ∧
    OneRegFaults (.pop d) d 2 s ∧
    (RegExists s d → DataFaults (.pop d) s.sp 2 s)

/-- "`PUSH ra` followed by `POP rb` leaves `x[b] = x[a]`, `sp` as before, and one RAM byte
overwritten." -/
def Obligations.PushThenPopCopiesTheRegister : Prop :=
  ∀ (a b : RegIdx) (s : State), Memory.wf s.ram = true → RegExists s a → RegExists s b →
    (s.sp - 1).toNat < s.cfg.ramSize →
    ∃ t u, exec (.push a) s = .next t ∧ exec (.pop b) t = .next u ∧
      u.reg b = s.reg a ∧ SameRegsExcept b s u ∧ u.sp = s.sp ∧ u.pc = s.pc + 4 ∧
      Memory.read u.ram (s.sp - 1).toNat = s.reg a ∧ SameRamExcept (s.sp - 1).toNat s u ∧
      SameFlags s u

/-! ## Lifecycle and host -/

/-- R39, R186: `Boot` clears all sixteen flags of a machine that is not Booted, boots it and changes
nothing else; on a Booted machine it does nothing (D29). -/
def Obligations.BootClearsTheFlagsAndNothingElse : Prop :=
  ∀ (s : State), ∃ t, hostEvent .boot s = .next t ∧ t.run = .booted ∧
    (s.run = .booted → t = s) ∧
    (s.run ≠ .booted → ∀ i : FlagIdx, getFlag t.flags i = false) ∧
    SameRegs s t ∧ t.pc = s.pc ∧ t.sp = s.sp ∧ SameRam s t ∧ SameRom s t ∧
    t.fault = s.fault ∧ t.cfg = s.cfg

/-- R187: `Halt` stops a Booted machine, is a no-op otherwise, and changes no architectural state. That
it acts at once is the model's reading (log entry 15): events come between cycles. -/
def Obligations.HaltStopsOnlyABootedMachine : Prop :=
  ∀ (s : State), ∃ t, hostEvent .halt s = .next t ∧
    (s.run = .booted → t.run = .halted) ∧ (s.run ≠ .booted → t.run = s.run) ∧
    SameRegs s t ∧ SameFlags s t ∧ t.pc = s.pc ∧ t.sp = s.sp ∧ SameRam s t ∧ SameRom s t ∧
    t.fault = s.fault ∧ t.cfg = s.cfg

/-- R188, R189: a cycle is run by `Step` when the machine is not Booted and by a tick when it is; the
other of the two does nothing. -/
def Obligations.StepAndTickNeverBothRunACycle : Prop :=
  ∀ (s : State),
    (s.run = .booted → hostEvent .step s = .next s ∧ hostEvent .tick s = step s) ∧
    (s.run ≠ .booted → hostEvent .step s = step s ∧ hostEvent .tick s = .next s)

/-- R185: `Reset` may be applied in any state, after anything, and equals construction. That it keeps
the configuration is the model's reading (log entry 11). -/
def Obligations.ResetEqualsConstructionAfterAnyRun : Prop :=
  ∀ (es : List HostEvent) (s t : State), s.cfg.legal = true → runEvents es s = .next t →
    hostEvent .reset t = construct s.cfg ∧ hostEvent .reset t = .next (State.resetWith s.cfg)

/-- R41, R33: while the machine is not Booted a host write of any number `v` is read back as `v mod 256`
and leaves the rest of its store, the other stores, `FAULT`, `RUN` and the configuration alone; an
index outside its store writes nothing, and a Booted machine is not written at all. That these last two
answer no next state is the model's choice (log entries 7 and 8). -/
def Obligations.HostWritesReadBackWhileNotBooted : Prop :=
  ∀ (s : State), Memory.wf s.ram = true → Memory.wf s.rom = true → s.cfg.legal = true →
    (s.run = .booted → ∀ w t, hostEvent (.write w) s ≠ .next t) ∧
    (s.run ≠ .booted →
      (∀ (i : RegIdx) v, RegExists s i → ∃ t, hostEvent (.write (.reg i.val v)) s = .next t ∧
        ((t.reg i).toNat : Int) = v % 256 ∧ SameRegsExcept i s t ∧ SameFlags s t ∧
        t.pc = s.pc ∧ t.sp = s.sp ∧ SameRam s t ∧ SameControl s t) ∧
      (∀ i v t, s.cfg.nregs ≤ i → hostEvent (.write (.reg i v)) s ≠ .next t) ∧
      (∀ v, ∃ t, hostEvent (.write (.pc v)) s = .next t ∧ (t.pc.toNat : Int) = v % 256 ∧
        SameRegs s t ∧ SameFlags s t ∧ t.sp = s.sp ∧ SameRam s t ∧ SameControl s t) ∧
      (∀ v, ∃ t, hostEvent (.write (.sp v)) s = .next t ∧ (t.sp.toNat : Int) = v % 256 ∧
        SameRegs s t ∧ SameFlags s t ∧ t.pc = s.pc ∧ SameRam s t ∧ SameControl s t) ∧
      (∀ (i : FlagIdx) b, ∃ t, hostEvent (.write (.flag i.val b)) s = .next t ∧
        getFlag t.flags i = b ∧ SameFlagsExcept [i] s t ∧ SameRegs s t ∧
        t.pc = s.pc ∧ t.sp = s.sp ∧ SameRam s t ∧ SameControl s t) ∧
      (∀ i b t, 16 ≤ i → hostEvent (.write (.flag i b)) s ≠ .next t) ∧
      (∀ a v, a < s.cfg.ramSize → ∃ t, hostEvent (.write (.ram a v)) s = .next t ∧
        ((Memory.read t.ram a).toNat : Int) = v % 256 ∧ SameRamExcept a s t ∧ SameRegs s t ∧
        SameFlags s t ∧ t.pc = s.pc ∧ t.sp = s.sp ∧ SameControl s t) ∧
      (∀ a v, a < s.cfg.romSize → ∃ t, hostEvent (.write (.rom a v)) s = .next t ∧
        ((Memory.read t.rom a).toNat : Int) = v % 256 ∧
        (∀ b, b ≠ a → Memory.read t.rom b = Memory.read s.rom b) ∧ SameRegs s t ∧
        SameFlags s t ∧ t.pc = s.pc ∧ t.sp = s.sp ∧ SameRam s t ∧
        t.cfg = s.cfg ∧ t.fault = s.fault ∧ t.run = s.run) ∧
      (∀ a v t, s.cfg.ramSize ≤ a → hostEvent (.write (.ram a v)) s ≠ .next t) ∧
      (∀ a v t, s.cfg.romSize ≤ a → hostEvent (.write (.rom a v)) s ≠ .next t))

/-- R31, R179 (D28): apart from `Reset`, an event changes `FAULT` only by driving a cycle that faults,
which records that fault; so once a fault is recorded, `FAULT` names a fault until `Reset`, whatever
cycles and host events follow. -/
def Obligations.OnlyResetClearsTheFaultRegister : Prop :=
  (∀ (e : HostEvent) (s t : State), e ≠ .reset → hostEvent e s = .next t →
    t.fault = s.fault ∨
    ((e = .step ∧ s.run ≠ .booted ∨ e = .tick ∧ s.run = .booted) ∧
      ∃ f, cycleFault s = some f ∧ t.fault = ⟨f.kind, s.pc, f.space, f.value⟩)) ∧
  (∀ (es : List HostEvent) (s t : State), HostEvent.reset ∉ es → s.fault.kind ≠ .none →
    runEvents es s = .next t → t.fault.kind ≠ .none)

/-- R176, R189: when a cycle of a Booted machine faults, the clock drives no further cycle: all later
ticks leave the machine as the faulting cycle left it. -/
def Obligations.NoTickRunsAfterAFault : Prop :=
  ∀ (s : State) (f : CycleFault) (k : Nat), s.cfg.legal = true → s.run = .booted →
    cycleFault s = some f →
    ∃ t, step s = .next t ∧ t.run = .halted ∧
      runEvents (List.replicate (k + 1) .tick) s = .next t

/-- A run whose cycles all pass the checks of R175 completes, and leaves `FAULT`, `RUN`, ROM and the
configuration as they were. -/
def Obligations.SafeRunsCompleteAndRecordNoFault : Prop :=
  ∀ (k : Nat) (s : State), s.cfg.legal = true → SafeFor k s →
    ∃ t, core.run k s = .next t ∧ SameControl s t
end

