-- ==== Sys2Proof/Laws/Decode.lean ====
section
/-! SUPPORT. The opcode table and the fields: each opcode value names one row, a nibble pair gives its
nibbles back, and what the decoder answers for each format. -/

namespace Sys2Proof

@[simp] theorem hiNibble_nibblePair (hi lo : Fin 16) : hiNibble (nibblePair hi lo) = hi := by
  ext
  simp only [hiNibble, nibblePair, BitVec.toNat_ofNat]
  omega

@[simp] theorem loNibble_nibblePair (hi lo : Fin 16) : loNibble (nibblePair hi lo) = lo := by
  ext
  simp only [loNibble, nibblePair, BitVec.toNat_ofNat]
  omega

/-- A byte is its two nibbles (R9). -/
theorem byte_ext_nibbles {b c : Byte} (hh : hiNibble b = hiNibble c) (hl : loNibble b = loNibble c) :
    b = c := by
  have h1 := congrArg Fin.val hh
  have h2 := congrArg Fin.val hl
  simp only [hiNibble, loNibble] at h1 h2
  apply BitVec.eq_of_toNat_eq
  omega

/-- Every row is found by its opcode value: the values are unique (R87). -/
@[simp] theorem Opcode.ofByte_byte (o : Opcode) : Opcode.ofByte o.byte = some o := by
  cases o <;> decide

/-- A row that is found has the opcode value looked for. -/
theorem Opcode.byte_of_ofByte {b : Byte} {o : Opcode} (h : Opcode.ofByte b = some o) : o.byte = b := by
  simpa using List.find?_some h

/-- Every row is found by its mnemonic (R93). -/
theorem Opcode.ofMnemonic_mnemonic (o : Opcode) : Opcode.ofMnemonic o.mnemonic = some o := by
  cases o <;> decide

/-- The instruction a row builds belongs to that row. -/
@[simp] theorem Opcode.opcode_build (o : Opcode) (hi lo : Fin 16) (k : Byte) :
    (o.build hi lo k).opcode = o := by
  cases o <;> rfl

end Sys2Proof
end

