-- ==== Sys2Proof/Laws/Flags.lean ====
section
/-! SUPPORT. The flag register: a flag reads as last written and no other flag moves (R10), for one
flag and for each of the flag sets an instruction writes (R27). -/

namespace Sys2Proof.Machine

/-- The mask of a BitField index has that one bit (R10). -/
theorem getFlag_mask (i j : FlagIdx) : getFlag (0x8000#16 >>> i.val) j = decide (j = i) := by
  revert i j; decide

/-- A flag reads as last written; the others are kept. -/
@[simp] theorem getFlag_setFlag (w : FlagWord) (i j : FlagIdx) (b : Bool) :
    getFlag (setFlag w i b) j = if j = i then b else getFlag w j := by
  have hm := getFlag_mask i j
  unfold getFlag at hm ⊢
  have hlt : 15 - j.val < 16 := by omega
  cases b
  · by_cases h : j = i
    · subst h
      simp only [setFlag, Bool.false_eq_true, if_false, BitVec.getLsbD_and, BitVec.getLsbD_not, hm,
        decide_true, Bool.not_true, Bool.and_false, if_true]
    · simp only [setFlag, Bool.false_eq_true, if_false, BitVec.getLsbD_and, BitVec.getLsbD_not, hm,
        h, decide_false, Bool.not_false, Bool.and_true, decide_eq_true hlt]
  · by_cases h : j = i
    · subst h; simp only [setFlag, if_true, BitVec.getLsbD_or, hm, decide_true, Bool.or_true]
    · simp only [setFlag, if_true, BitVec.getLsbD_or, hm, h, decide_false, Bool.or_false, if_false]

/-- The flags after an addition or subtraction (R27): Z, C, V, H, S from the result, the rest kept. -/
theorem getFlag_setArithFlags (w : FlagWord) (r : AluResult) (j : FlagIdx) :
    getFlag (setArithFlags w r) j =
      if j = 0 then r.z else if j = 1 then r.c else if j = 2 then r.v
      else if j = 5 then r.h else if j = 6 then r.s else getFlag w j := by
  simp only [setArithFlags, getFlag_setFlag, Flag.index]
  split_ifs <;> simp_all

/-- The flags after AND (R27): Z and S from the result, the rest kept. -/
theorem getFlag_setLogicFlags (w : FlagWord) (v : Byte) (j : FlagIdx) :
    getFlag (setLogicFlags w v) j =
      if j = 0 then isZero v else if j = 6 then signBit v else getFlag w j := by
  simp only [setLogicFlags, getFlag_setFlag, Flag.index]
  split_ifs <;> simp_all

/-- The flags after ASR (R27): C from the bit shifted out, Z and S from the result, the rest kept. -/
theorem getFlag_setShiftFlags (w : FlagWord) (a : Byte) (j : FlagIdx) :
    getFlag (setShiftFlags w a) j =
      if j = 0 then isZero (shiftRightArith a) else if j = 1 then a.getLsbD 0
      else if j = 6 then signBit (shiftRightArith a) else getFlag w j := by
  simp only [setShiftFlags, getFlag_setFlag, getFlag_setLogicFlags, Flag.index]
  split_ifs <;> simp_all

/-- Two flag words with the same sixteen flags are one word. -/
theorem flagWord_ext {w w' : FlagWord} (h : ∀ i : FlagIdx, getFlag w i = getFlag w' i) : w = w' := by
  apply BitVec.eq_of_getLsbD_eq
  intro n hn
  have := h ⟨15 - n, by omega⟩
  simpa [getFlag, show 15 - (15 - n) = n by omega] using this

end Sys2Proof.Machine
end

