-- ==== Sys2Proof/Laws/Memory.lean ====
section
/-! SUPPORT. Memory: every operation keeps the canonical form and the size, a read after a write to
the same byte gives what was written, and a write leaves every other byte alone. -/

namespace Sys2Proof.Machine

@[simp] theorem Memory.read_nil (a : Nat) : Memory.read [] a = 0#8 := rfl

@[simp] theorem Memory.wf_nil : Memory.wf [] = true := rfl

@[simp] theorem Memory.within_nil (n : Nat) : Memory.within n [] = true := rfl

theorem Memory.wfFrom_cons {lo : Nat} {c : Host.Cell} {m : Memory} :
    Memory.wfFrom lo (c :: m) = true ↔
      lo ≤ c.1 ∧ c.2 ≠ 0#8 ∧ Memory.wfFrom (c.1 + 1) m = true := by
  obtain ⟨a, v⟩ := c
  simp [Memory.wfFrom, and_assoc]

/-- A canonical memory from `lo` on is canonical from any lower bound on. -/
theorem Memory.wfFrom_mono {lo lo' : Nat} {m : Memory} (h : lo' ≤ lo)
    (hm : Memory.wfFrom lo m = true) : Memory.wfFrom lo' m = true := by
  cases m with
  | nil => rfl
  | cons c m =>
    rw [Memory.wfFrom_cons] at hm ⊢
    exact ⟨h.trans hm.1, hm.2⟩

/-- Below the first address that may be listed, everything reads as the reset contents. -/
theorem Memory.read_below {lo a : Nat} {m : Memory} (hm : Memory.wfFrom lo m = true)
    (h : a < lo) : Memory.read m a = 0#8 := by
  cases m with
  | nil => rfl
  | cons c m =>
    obtain ⟨b, w⟩ := c
    rw [Memory.wfFrom_cons] at hm
    have : a < b := lt_of_lt_of_le h hm.1
    simp [Memory.read, this, this.ne]

theorem Memory.write_wfFrom {lo : Nat} {m : Memory} {a : Nat} (v : Byte) (ha : lo ≤ a)
    (hm : Memory.wfFrom lo m = true) : Memory.wfFrom lo (Memory.write m a v) = true := by
  induction m generalizing lo with
  | nil =>
    by_cases hv : v = 0#8 <;> simp [Memory.write, Memory.wfFrom, hv, ha]
  | cons c m ih =>
    obtain ⟨b, w⟩ := c
    rw [Memory.wfFrom_cons] at hm
    obtain ⟨hb, hw, hm⟩ := hm
    simp only [Memory.write]
    by_cases hab : a < b
    · rw [if_pos hab]
      by_cases hv : v = 0#8
      · rw [if_pos hv]; exact Memory.wfFrom_cons.2 ⟨hb, hw, hm⟩
      · rw [if_neg hv]
        exact Memory.wfFrom_cons.2 ⟨ha, hv, Memory.wfFrom_cons.2 ⟨hab, hw, hm⟩⟩
    · rw [if_neg hab]
      by_cases heq : a = b
      · subst heq
        rw [if_pos rfl]
        by_cases hv : v = 0#8
        · rw [if_pos hv]; exact Memory.wfFrom_mono (Nat.le_succ_of_le hb) hm
        · rw [if_neg hv]; exact Memory.wfFrom_cons.2 ⟨ha, hv, hm⟩
      · rw [if_neg heq]
        exact Memory.wfFrom_cons.2 ⟨hb, hw, ih (by omega) hm⟩

/-- A write keeps the canonical form. -/
theorem Memory.write_wf {m : Memory} (a : Nat) (v : Byte) (hm : Memory.wf m = true) :
    Memory.wf (Memory.write m a v) = true :=
  Memory.write_wfFrom v (Nat.zero_le a) hm

/-- A write to an existing byte lists no address outside the memory. -/
theorem Memory.write_within {n : Nat} {m : Memory} {a : Nat} (v : Byte) (ha : a < n)
    (hm : Memory.within n m = true) : Memory.within n (Memory.write m a v) = true := by
  induction m with
  | nil => by_cases hv : v = 0#8 <;> simp [Memory.write, Memory.within, hv, ha]
  | cons c m ih =>
    obtain ⟨b, w⟩ := c
    have hcons : ∀ (c : Host.Cell) (l : Memory),
        Memory.within n (c :: l) = true ↔ c.1 < n ∧ Memory.within n l = true := by
      intro c l; simp [Memory.within]
    rw [hcons] at hm
    have ih := ih hm.2
    simp only [Memory.write]
    split_ifs <;> simp [hcons, hm, ha, ih]

theorem Memory.read_writeFrom {lo : Nat} {m : Memory} (a : Nat) (v : Byte) (b : Nat)
    (hm : Memory.wfFrom lo m = true) :
    Memory.read (Memory.write m a v) b = if b = a then v else Memory.read m b := by
  induction m generalizing lo with
  | nil =>
    by_cases hv : v = 0#8
    · simp [Memory.write, hv]
    · by_cases hba : b = a <;> simp [Memory.write, Memory.read, hv, hba]
  | cons c m ih =>
    obtain ⟨k, w⟩ := c
    rw [Memory.wfFrom_cons] at hm
    obtain ⟨hk, hw, hm⟩ := hm
    simp only at hk hw hm
    simp only [Memory.write]
    by_cases hak : a < k
    · by_cases hv : v = 0#8
      · simp only [hak, hv, if_true]
        by_cases hba : b = a
        · subst hba; simp [Memory.read, hak, hak.ne]
        · simp [hba]
      · simp only [hak, hv, if_true, if_false]
        by_cases hba : b = a
        · simp [Memory.read, hba]
        · by_cases hlt : b < a
          · have h1 : b < k := hlt.trans hak
            simp [Memory.read, hba, hlt, h1, h1.ne]
          · simp [Memory.read, hba, hlt]
    · by_cases heq : a = k
      · subst heq
        by_cases hv : v = 0#8
        · simp only [lt_irrefl, hv, if_true, if_false]
          by_cases hba : b = a
          · simp [hba, Memory.read_below hm (Nat.lt_succ_self a)]
          · by_cases hlt : b < a
            · simp [Memory.read, hba, hlt, Memory.read_below hm (Nat.lt_succ_of_lt hlt)]
            · simp [Memory.read, hba, hlt]
        · by_cases hba : b = a <;> simp [Memory.read, hv, hba]
      · simp only [hak, heq, if_false, Memory.read, ih hm]
        by_cases hb : b = k
        · simp [hb, Ne.symm heq]
        · by_cases hlt : b < k
          · have : b ≠ a := by omega
            simp [hb, hlt, this]
          · simp [hb, hlt]

/-- The memories of the reset state are in canonical form. -/
theorem State.reset_memories_wf :
    Memory.wf State.reset.ram = true ∧ Memory.wf State.reset.rom = true :=
  ⟨rfl, rfl⟩

/-- What a byte reads as after a write (R61). -/
theorem Memory.read_write {m : Memory} (a : Nat) (v : Byte) (b : Nat) (hm : Memory.wf m = true) :
    Memory.read (Memory.write m a v) b = if b = a then v else Memory.read m b :=
  Memory.read_writeFrom a v b hm

end Sys2Proof.Machine
end

