-- ==== Sys2Proof/Laws/State.lean ====
section
/-! SUPPORT. One lemma per field for each update of State, so that no proof unfolds a record
update. -/

namespace Sys2Proof.Machine

/-! ## setReg -/

@[simp] theorem State.setReg_cfg (s : State) (i : RegIdx) (v : Byte) : (s.setReg i v).cfg = s.cfg := rfl
@[simp] theorem State.setReg_regs (s : State) (i : RegIdx) (v : Byte) : (s.setReg i v).regs = s.regs.set i.val v i.isLt := rfl
@[simp] theorem State.setReg_pc (s : State) (i : RegIdx) (v : Byte) : (s.setReg i v).pc = s.pc := rfl
@[simp] theorem State.setReg_sp (s : State) (i : RegIdx) (v : Byte) : (s.setReg i v).sp = s.sp := rfl
@[simp] theorem State.setReg_flags (s : State) (i : RegIdx) (v : Byte) : (s.setReg i v).flags = s.flags := rfl
@[simp] theorem State.setReg_fault (s : State) (i : RegIdx) (v : Byte) : (s.setReg i v).fault = s.fault := rfl
@[simp] theorem State.setReg_run (s : State) (i : RegIdx) (v : Byte) : (s.setReg i v).run = s.run := rfl
@[simp] theorem State.setReg_ram (s : State) (i : RegIdx) (v : Byte) : (s.setReg i v).ram = s.ram := rfl
@[simp] theorem State.setReg_rom (s : State) (i : RegIdx) (v : Byte) : (s.setReg i v).rom = s.rom := rfl

/-! ## setFlags -/

@[simp] theorem State.setFlags_cfg (s : State) (w : FlagWord) : (s.setFlags w).cfg = s.cfg := rfl
@[simp] theorem State.setFlags_regs (s : State) (w : FlagWord) : (s.setFlags w).regs = s.regs := rfl
@[simp] theorem State.setFlags_pc (s : State) (w : FlagWord) : (s.setFlags w).pc = s.pc := rfl
@[simp] theorem State.setFlags_sp (s : State) (w : FlagWord) : (s.setFlags w).sp = s.sp := rfl
@[simp] theorem State.setFlags_flags (s : State) (w : FlagWord) : (s.setFlags w).flags = w := rfl
@[simp] theorem State.setFlags_fault (s : State) (w : FlagWord) : (s.setFlags w).fault = s.fault := rfl
@[simp] theorem State.setFlags_run (s : State) (w : FlagWord) : (s.setFlags w).run = s.run := rfl
@[simp] theorem State.setFlags_ram (s : State) (w : FlagWord) : (s.setFlags w).ram = s.ram := rfl
@[simp] theorem State.setFlags_rom (s : State) (w : FlagWord) : (s.setFlags w).rom = s.rom := rfl
@[simp] theorem State.setFlags_reg (s : State) (w : FlagWord) (j : RegIdx) : (s.setFlags w).reg j = s.reg j := rfl

/-! ## setPc -/

@[simp] theorem State.setPc_cfg (s : State) (a : Byte) : (s.setPc a).cfg = s.cfg := rfl
@[simp] theorem State.setPc_regs (s : State) (a : Byte) : (s.setPc a).regs = s.regs := rfl
@[simp] theorem State.setPc_pc (s : State) (a : Byte) : (s.setPc a).pc = a := rfl
@[simp] theorem State.setPc_sp (s : State) (a : Byte) : (s.setPc a).sp = s.sp := rfl
@[simp] theorem State.setPc_flags (s : State) (a : Byte) : (s.setPc a).flags = s.flags := rfl
@[simp] theorem State.setPc_fault (s : State) (a : Byte) : (s.setPc a).fault = s.fault := rfl
@[simp] theorem State.setPc_run (s : State) (a : Byte) : (s.setPc a).run = s.run := rfl
@[simp] theorem State.setPc_ram (s : State) (a : Byte) : (s.setPc a).ram = s.ram := rfl
@[simp] theorem State.setPc_rom (s : State) (a : Byte) : (s.setPc a).rom = s.rom := rfl
@[simp] theorem State.setPc_reg (s : State) (a : Byte) (j : RegIdx) : (s.setPc a).reg j = s.reg j := rfl

/-! ## setSp -/

@[simp] theorem State.setSp_cfg (s : State) (a : Byte) : (s.setSp a).cfg = s.cfg := rfl
@[simp] theorem State.setSp_regs (s : State) (a : Byte) : (s.setSp a).regs = s.regs := rfl
@[simp] theorem State.setSp_pc (s : State) (a : Byte) : (s.setSp a).pc = s.pc := rfl
@[simp] theorem State.setSp_sp (s : State) (a : Byte) : (s.setSp a).sp = a := rfl
@[simp] theorem State.setSp_flags (s : State) (a : Byte) : (s.setSp a).flags = s.flags := rfl
@[simp] theorem State.setSp_fault (s : State) (a : Byte) : (s.setSp a).fault = s.fault := rfl
@[simp] theorem State.setSp_run (s : State) (a : Byte) : (s.setSp a).run = s.run := rfl
@[simp] theorem State.setSp_ram (s : State) (a : Byte) : (s.setSp a).ram = s.ram := rfl
@[simp] theorem State.setSp_rom (s : State) (a : Byte) : (s.setSp a).rom = s.rom := rfl
@[simp] theorem State.setSp_reg (s : State) (a : Byte) (j : RegIdx) : (s.setSp a).reg j = s.reg j := rfl

/-! ## setRam -/

@[simp] theorem State.setRam_cfg (s : State) (m : Memory) : (s.setRam m).cfg = s.cfg := rfl
@[simp] theorem State.setRam_regs (s : State) (m : Memory) : (s.setRam m).regs = s.regs := rfl
@[simp] theorem State.setRam_pc (s : State) (m : Memory) : (s.setRam m).pc = s.pc := rfl
@[simp] theorem State.setRam_sp (s : State) (m : Memory) : (s.setRam m).sp = s.sp := rfl
@[simp] theorem State.setRam_flags (s : State) (m : Memory) : (s.setRam m).flags = s.flags := rfl
@[simp] theorem State.setRam_fault (s : State) (m : Memory) : (s.setRam m).fault = s.fault := rfl
@[simp] theorem State.setRam_run (s : State) (m : Memory) : (s.setRam m).run = s.run := rfl
@[simp] theorem State.setRam_ram (s : State) (m : Memory) : (s.setRam m).ram = m := rfl
@[simp] theorem State.setRam_rom (s : State) (m : Memory) : (s.setRam m).rom = s.rom := rfl
@[simp] theorem State.setRam_reg (s : State) (m : Memory) (j : RegIdx) : (s.setRam m).reg j = s.reg j := rfl

/-! ## setRom -/

@[simp] theorem State.setRom_cfg (s : State) (m : Memory) : (s.setRom m).cfg = s.cfg := rfl
@[simp] theorem State.setRom_regs (s : State) (m : Memory) : (s.setRom m).regs = s.regs := rfl
@[simp] theorem State.setRom_pc (s : State) (m : Memory) : (s.setRom m).pc = s.pc := rfl
@[simp] theorem State.setRom_sp (s : State) (m : Memory) : (s.setRom m).sp = s.sp := rfl
@[simp] theorem State.setRom_flags (s : State) (m : Memory) : (s.setRom m).flags = s.flags := rfl
@[simp] theorem State.setRom_fault (s : State) (m : Memory) : (s.setRom m).fault = s.fault := rfl
@[simp] theorem State.setRom_run (s : State) (m : Memory) : (s.setRom m).run = s.run := rfl
@[simp] theorem State.setRom_ram (s : State) (m : Memory) : (s.setRom m).ram = s.ram := rfl
@[simp] theorem State.setRom_rom (s : State) (m : Memory) : (s.setRom m).rom = m := rfl
@[simp] theorem State.setRom_reg (s : State) (m : Memory) (j : RegIdx) : (s.setRom m).reg j = s.reg j := rfl

/-! ## advance -/

@[simp] theorem State.advance_cfg (s : State) (n : Byte) : (s.advance n).cfg = s.cfg := rfl
@[simp] theorem State.advance_regs (s : State) (n : Byte) : (s.advance n).regs = s.regs := rfl
@[simp] theorem State.advance_pc (s : State) (n : Byte) : (s.advance n).pc = s.pc + n := rfl
@[simp] theorem State.advance_sp (s : State) (n : Byte) : (s.advance n).sp = s.sp := rfl
@[simp] theorem State.advance_flags (s : State) (n : Byte) : (s.advance n).flags = s.flags := rfl
@[simp] theorem State.advance_fault (s : State) (n : Byte) : (s.advance n).fault = s.fault := rfl
@[simp] theorem State.advance_run (s : State) (n : Byte) : (s.advance n).run = s.run := rfl
@[simp] theorem State.advance_ram (s : State) (n : Byte) : (s.advance n).ram = s.ram := rfl
@[simp] theorem State.advance_rom (s : State) (n : Byte) : (s.advance n).rom = s.rom := rfl
@[simp] theorem State.advance_reg (s : State) (n : Byte) (j : RegIdx) : (s.advance n).reg j = s.reg j := rfl

/-- A register reads as last written; the others are untouched (R20). -/
@[simp] theorem State.setReg_reg (s : State) (i : RegIdx) (v : Byte) (j : RegIdx) :
    (s.setReg i v).reg j = if j = i then v else s.reg j := by
  simp only [State.reg, State.setReg, Vector.get_eq_getElem, Vector.getElem_set, Fin.ext_iff, eq_comm]

/-! ## takeFault -/

@[simp] theorem State.takeFault_cfg (s : State) (f : CycleFault) (n : Byte) : (s.takeFault f n).cfg = s.cfg := rfl
@[simp] theorem State.takeFault_regs (s : State) (f : CycleFault) (n : Byte) : (s.takeFault f n).regs = s.regs := rfl
@[simp] theorem State.takeFault_sp (s : State) (f : CycleFault) (n : Byte) : (s.takeFault f n).sp = s.sp := rfl
@[simp] theorem State.takeFault_flags (s : State) (f : CycleFault) (n : Byte) : (s.takeFault f n).flags = s.flags := rfl
@[simp] theorem State.takeFault_ram (s : State) (f : CycleFault) (n : Byte) : (s.takeFault f n).ram = s.ram := rfl
@[simp] theorem State.takeFault_rom (s : State) (f : CycleFault) (n : Byte) : (s.takeFault f n).rom = s.rom := rfl
@[simp] theorem State.takeFault_reg (s : State) (f : CycleFault) (n : Byte) (j : RegIdx) :
    (s.takeFault f n).reg j = s.reg j := rfl
@[simp] theorem State.takeFault_fault (s : State) (f : CycleFault) (n : Byte) :
    (s.takeFault f n).fault = ⟨f.kind, s.pc, f.space, f.value⟩ := rfl

/-! ## reset -/

@[simp] theorem State.resetWith_cfg (c : Config) : (State.resetWith c).cfg = c := rfl
@[simp] theorem State.resetWith_pc (c : Config) : (State.resetWith c).pc = 0#8 := rfl
@[simp] theorem State.resetWith_sp (c : Config) : (State.resetWith c).sp = 0#8 := rfl
@[simp] theorem State.resetWith_flags (c : Config) : (State.resetWith c).flags = 0#16 := rfl
@[simp] theorem State.resetWith_fault (c : Config) : (State.resetWith c).fault = FaultReg.empty := rfl
@[simp] theorem State.resetWith_run (c : Config) : (State.resetWith c).run = .constructed := rfl
@[simp] theorem State.resetWith_ram (c : Config) : (State.resetWith c).ram = [] := rfl
@[simp] theorem State.resetWith_rom (c : Config) : (State.resetWith c).rom = [] := rfl
@[simp] theorem State.resetWith_reg (c : Config) (i : RegIdx) : (State.resetWith c).reg i = 0#8 := by
  simp [State.reg, State.resetWith, Vector.get_eq_getElem]

/-! ## The flag register among the other fields

A write of the flag register moves past a write of any other field, and the later of two wins: with
these, two runs that differ in the flags only are compared without unfolding State. -/

theorem State.setFlags_setReg (s : State) (w : FlagWord) (i : RegIdx) (v : Byte) :
    (s.setFlags w).setReg i v = (s.setReg i v).setFlags w := rfl
theorem State.setFlags_setPc (s : State) (w : FlagWord) (a : Byte) :
    (s.setFlags w).setPc a = (s.setPc a).setFlags w := rfl
theorem State.setFlags_advance (s : State) (w : FlagWord) (n : Byte) :
    (s.setFlags w).advance n = (s.advance n).setFlags w := rfl
theorem State.setFlags_setSp (s : State) (w : FlagWord) (a : Byte) :
    (s.setFlags w).setSp a = (s.setSp a).setFlags w := rfl
theorem State.setFlags_setRam (s : State) (w : FlagWord) (m : Memory) :
    (s.setFlags w).setRam m = (s.setRam m).setFlags w := rfl
theorem State.setFlags_setFlags (s : State) (w w' : FlagWord) :
    (s.setFlags w).setFlags w' = s.setFlags w' := rfl
/-- Writing the flags back changes nothing. -/
theorem State.setFlags_self (s : State) : s.setFlags s.flags = s := rfl

end Sys2Proof.Machine
end

