-- ==== Sys2Proof/Laws/Ops.lean ====
section
/-! SUPPORT. For each shared operation, what it answers inside its range and what fault it raises
outside; the meanings' proofs cite these and unfold none of the operations. -/

namespace Sys2Proof.Machine

variable {s : State}

/-! ## Except -/

@[simp] theorem ok_bind {α β : Type} (a : α) (f : α → Except CycleFault β) :
    ((Except.ok a : Except CycleFault α) >>= f) = f a := rfl

@[simp] theorem error_bind {α β : Type} (e : CycleFault) (f : α → Except CycleFault β) :
    ((Except.error e : Except CycleFault α) >>= f) = .error e := rfl

@[simp] theorem retire_ok (s t : State) (n : Byte) : retire s n (.ok t) = .next t := rfl

@[simp] theorem retire_error (s : State) (n : Byte) (f : CycleFault) :
    retire s n (.error f) = .next (s.takeFault f n) := rfl

/-! ## Operands -/

theorem State.checkReg_ok {i : RegIdx} (h : i.val < s.cfg.nregs) : s.checkReg i = .ok () :=
  if_pos h

theorem State.checkReg_error {i : RegIdx} (h : ¬ i.val < s.cfg.nregs) :
    s.checkReg i = .error (.reg i) :=
  if_neg h

theorem State.readReg_ok {i : RegIdx} (h : i.val < s.cfg.nregs) : s.readReg i = .ok (s.reg i) :=
  if_pos h

theorem State.readReg_error {i : RegIdx} (h : ¬ i.val < s.cfg.nregs) :
    s.readReg i = .error (.reg i) :=
  if_neg h

theorem checkBit_ok {b : BitIdx} (h : b.val < 8) : checkBit b = .ok () := if_pos h

theorem checkBit_error {b : BitIdx} (h : ¬ b.val < 8) : checkBit b = .error (.bit b) := if_neg h

/-- The branch target is plain modular addition of the offset's pattern (R146). -/
theorem branchTarget_eq (a0 k : Byte) : branchTarget a0 k = a0 + k := by
  apply BitVec.eq_of_toInt_eq
  simp [branchTarget, wrap8, BitVec.toInt_ofInt, BitVec.toInt_add, BitVec.toInt_eq_toNat_bmod a0]

/-- Bit `c` of a register after bit `b` is written (R134). -/
theorem bitOf_withBit (v : Byte) (b c : BitIdx) (x : Bool) (hb : b.val < 8) :
    bitOf (withBit v b x) c = if c = b then x else bitOf v c := by
  have mask : ∀ n m : Fin 16, n.val < 8 →
      (1#8 <<< n.val).getLsbD m.val = decide (m = n) := by decide
  have hm := mask b c hb
  unfold bitOf withBit
  cases x
  · by_cases hcb : c = b
    · subst hcb; simp [hm]
    · simp only [Bool.false_eq_true, if_false, BitVec.getLsbD_and, BitVec.getLsbD_not, hm, hcb,
        decide_false, Bool.not_false, Bool.and_true]
      by_cases hc : c.val < 8
      · simp [hc]
      · simp [BitVec.getLsbD_of_ge v c.val (by omega)]
  · by_cases hcb : c = b
    · subst hcb; simp [BitVec.getLsbD_or, hm]
    · simp [BitVec.getLsbD_or, hm, hcb]

/-! ## Memory -/

theorem State.ifetch_ok {a : Byte} (h : a.toNat < imemSize s.cfg) :
    s.ifetch a = .ok (Memory.read s.imem a.toNat) :=
  if_pos h

theorem State.ifetch_error {a : Byte} (h : ¬ a.toNat < imemSize s.cfg) :
    s.ifetch a = .error (.imem a) :=
  if_neg h

theorem State.memRead_ok {a : Byte} (h : a.toNat < s.cfg.ramSize) :
    s.memRead a = .ok (Memory.read s.ram a.toNat) :=
  if_pos h

theorem State.memRead_error {a : Byte} (h : ¬ a.toNat < s.cfg.ramSize) :
    s.memRead a = .error (.ram a) :=
  if_neg h

theorem State.memWrite_ok {a v : Byte} (h : a.toNat < s.cfg.ramSize) :
    s.memWrite a v = .ok (s.setRam (Memory.write s.ram a.toNat v)) :=
  if_pos h

theorem State.memWrite_error {a v : Byte} (h : ¬ a.toNat < s.cfg.ramSize) :
    s.memWrite a v = .error (.ram a) :=
  if_neg h

theorem State.pushByte_ok {v : Byte} (h : (s.sp - 1).toNat < s.cfg.ramSize) :
    s.pushByte v = .ok ((s.setRam (Memory.write s.ram (s.sp - 1).toNat v)).setSp (s.sp - 1)) := by
  rw [State.pushByte, State.memWrite_ok h, ok_bind]

theorem State.pushByte_error {v : Byte} (h : ¬ (s.sp - 1).toNat < s.cfg.ramSize) :
    s.pushByte v = .error (.ram (s.sp - 1)) := by
  rw [State.pushByte, State.memWrite_error h, error_bind]

theorem State.popByte_ok (h : s.sp.toNat < s.cfg.ramSize) :
    s.popByte = .ok (Memory.read s.ram s.sp.toNat, s.setSp (s.sp + 1)) := by
  rw [State.popByte, State.memRead_ok h, ok_bind]

theorem State.popByte_error (h : ¬ s.sp.toNat < s.cfg.ramSize) :
    s.popByte = .error (.ram s.sp) := by
  rw [State.popByte, State.memRead_error h, error_bind]

/-! ## Taking a fault (R176) -/

theorem State.takeFault_pc_halt {f : CycleFault} {n : Byte} (h : s.cfg.policy = .halt) :
    (s.takeFault f n).pc = s.pc := by
  simp [State.takeFault, h]

theorem State.takeFault_pc_skip {f : CycleFault} {n : Byte} (h : s.cfg.policy = .skip) :
    (s.takeFault f n).pc = s.pc + n := by
  simp [State.takeFault, h]

theorem State.takeFault_run_booted {f : CycleFault} {n : Byte} (h : s.run = .booted) :
    (s.takeFault f n).run = .halted := by
  simp [State.takeFault, h]

theorem State.takeFault_run_idle {f : CycleFault} {n : Byte} (h : s.run ≠ .booted) :
    (s.takeFault f n).run = s.run := by
  cases hr : s.run <;> simp_all [State.takeFault]

end Sys2Proof.Machine
end

