-- ==== Sys2Proof/Laws/Frames.lean ====
section
/-! SUPPORT. The frames of Safety.lean: they hold of a state and itself, they compose, and the shared
operations meet them. Taking a fault meets R176's description whole. -/

namespace Sys2Proof.Machine

/-! ## Reflexivity and composition -/

@[simp] theorem SameRegs.rfl (s : State) : SameRegs s s := fun _ => Eq.refl _

@[simp] theorem SameFlags.rfl (s : State) : SameFlags s s := fun _ => Eq.refl _

@[simp] theorem SameRam.rfl (s : State) : SameRam s s := fun _ => Eq.refl _

@[simp] theorem SameRom.rfl (s : State) : SameRom s s := fun _ => Eq.refl _

@[simp] theorem SameControl.rfl (s : State) : SameControl s s := ⟨Eq.refl _, Eq.refl _, Eq.refl _, SameRom.rfl s⟩

theorem SameControl.trans {s t u : State} (h : SameControl s t) (h' : SameControl t u) :
    SameControl s u :=
  ⟨h'.1.trans h.1, h'.2.1.trans h.2.1, h'.2.2.1.trans h.2.2.1,
    fun a => (h'.2.2.2 a).trans (h.2.2.2 a)⟩

/-! ## Taking a fault -/

/-- `takeFault` does exactly what R176 to R178 say. -/
theorem State.takeFault_entry (s : State) (f : CycleFault) (n : Byte) :
    FaultEntry s f.kind f.space f.value n (s.takeFault f n) :=
  ⟨rfl, State.takeFault_pc_halt, State.takeFault_pc_skip, State.takeFault_run_booted,
    State.takeFault_run_idle, fun _ => rfl, fun _ => rfl, rfl, fun _ => rfl, fun _ => rfl, rfl⟩

/-! ## Writing a register, the flags, a byte of RAM -/

/-- After `x[d] <- v` every other register is as before. -/
theorem State.setReg_frame (s : State) (d : RegIdx) (v : Byte) :
    SameRegsExcept d s (s.setReg d v) := by
  intro j hj
  simp [hj]

/-- After `RAM[a] <- v` the byte reads `v` and every other byte as before. -/
theorem State.setRam_write_frame {s : State} (a : Nat) (v : Byte) (h : Memory.wf s.ram = true) :
    Memory.read (s.setRam (Memory.write s.ram a v)).ram a = v ∧
      SameRamExcept a s (s.setRam (Memory.write s.ram a v)) := by
  refine ⟨?_, fun b hb => ?_⟩ <;> simp [Memory.read_write a v _ h]
  exact fun h => absurd h hb

/-- After the flag set of ADD, ADC, SUB, SBC is written, the other eleven flags are as before. -/
theorem setArithFlags_frame (w : FlagWord) (r : AluResult) (j : FlagIdx)
    (h : j ∉ ([0, 1, 2, 5, 6] : List FlagIdx)) : getFlag (setArithFlags w r) j = getFlag w j := by
  simp only [List.mem_cons, List.not_mem_nil, or_false, not_or] at h
  simp [getFlag_setArithFlags, h]

/-- After the flag set of AND is written, the other fourteen flags are as before. -/
theorem setLogicFlags_frame (w : FlagWord) (v : Byte) (j : FlagIdx)
    (h : j ∉ ([0, 6] : List FlagIdx)) : getFlag (setLogicFlags w v) j = getFlag w j := by
  simp only [List.mem_cons, List.not_mem_nil, or_false, not_or] at h
  simp [getFlag_setLogicFlags, h]

/-- After the flag set of ASR is written, the other thirteen flags are as before. -/
theorem setShiftFlags_frame (w : FlagWord) (a : Byte) (j : FlagIdx)
    (h : j ∉ ([0, 1, 6] : List FlagIdx)) : getFlag (setShiftFlags w a) j = getFlag w j := by
  simp only [List.mem_cons, List.not_mem_nil, or_false, not_or] at h
  simp [getFlag_setShiftFlags, h]

end Sys2Proof.Machine
end

