-- ==== Sys2Proof/Laws/PerInstr.lean ====
section
/-! SUPPORT. Statements made for every instruction, one lemma per constructor: the shape of its
encoding. -/

/-- The encoding of `i` has the length of its row (R83), begins with the opcode value of its row, and
that value names its row in the table (R87). -/
def Sys2Proof.Laws.EncodingShape.Statement (i : Sys2Proof.Instr) : Prop :=
  (Sys2Proof.encode i).length = i.opcode.len ∧
    (Sys2Proof.encode i)[0]? = some i.opcode.byte ∧
    Sys2Proof.Opcode.ofByte i.opcode.byte = some i.opcode

namespace Sys2Proof.Laws.EncodingShape

theorem nop : Statement (.nop) :=
  ⟨rfl, rfl, Opcode.ofByte_byte _⟩

theorem add (d : RegIdx) (r : RegIdx) : Statement (.add d r) :=
  ⟨rfl, rfl, Opcode.ofByte_byte _⟩

theorem adc (d : RegIdx) (r : RegIdx) : Statement (.adc d r) :=
  ⟨rfl, rfl, Opcode.ofByte_byte _⟩

theorem sub (d : RegIdx) (r : RegIdx) : Statement (.sub d r) :=
  ⟨rfl, rfl, Opcode.ofByte_byte _⟩

theorem sbc (d : RegIdx) (r : RegIdx) : Statement (.sbc d r) :=
  ⟨rfl, rfl, Opcode.ofByte_byte _⟩

theorem and (d : RegIdx) (r : RegIdx) : Statement (.and d r) :=
  ⟨rfl, rfl, Opcode.ofByte_byte _⟩

theorem asr (d : RegIdx) : Statement (.asr d) :=
  ⟨rfl, rfl, Opcode.ofByte_byte _⟩

theorem bset (f : FlagIdx) : Statement (.bset f) :=
  ⟨rfl, rfl, Opcode.ofByte_byte _⟩

theorem bclr (f : FlagIdx) : Statement (.bclr f) :=
  ⟨rfl, rfl, Opcode.ofByte_byte _⟩

theorem bst (d : RegIdx) (b : BitIdx) : Statement (.bst d b) :=
  ⟨rfl, rfl, Opcode.ofByte_byte _⟩

theorem bld (d : RegIdx) (b : BitIdx) : Statement (.bld d b) :=
  ⟨rfl, rfl, Opcode.ofByte_byte _⟩

theorem brbs (f : FlagIdx) (k : Byte) : Statement (.brbs f k) :=
  ⟨rfl, rfl, Opcode.ofByte_byte _⟩

theorem brbc (f : FlagIdx) (k : Byte) : Statement (.brbc f k) :=
  ⟨rfl, rfl, Opcode.ofByte_byte _⟩

theorem jmp (k : Byte) : Statement (.jmp k) :=
  ⟨rfl, rfl, Opcode.ofByte_byte _⟩

theorem call (k : Byte) : Statement (.call k) :=
  ⟨rfl, rfl, Opcode.ofByte_byte _⟩

theorem ret : Statement (.ret) :=
  ⟨rfl, rfl, Opcode.ofByte_byte _⟩

theorem ldi (d : RegIdx) (k : Byte) : Statement (.ldi d k) :=
  ⟨rfl, rfl, Opcode.ofByte_byte _⟩

theorem mov (d : RegIdx) (r : RegIdx) : Statement (.mov d r) :=
  ⟨rfl, rfl, Opcode.ofByte_byte _⟩

theorem ld (d : RegIdx) (r : RegIdx) : Statement (.ld d r) :=
  ⟨rfl, rfl, Opcode.ofByte_byte _⟩

theorem st (d : RegIdx) (r : RegIdx) : Statement (.st d r) :=
  ⟨rfl, rfl, Opcode.ofByte_byte _⟩

theorem push (r : RegIdx) : Statement (.push r) :=
  ⟨rfl, rfl, Opcode.ofByte_byte _⟩

theorem pop (d : RegIdx) : Statement (.pop d) :=
  ⟨rfl, rfl, Opcode.ofByte_byte _⟩

end Sys2Proof.Laws.EncodingShape
end

