-- ==== Sys2Proof/Tests/Slice0.lean ====
section
/-! SUPPORT. Tests of the model against the spec's own vectors (95_test_vectors.md) and worked
examples, and for every statement with hypotheses a witness that meets them. -/

namespace Sys2Proof.Tests

open Sys2Proof Sys2Proof.Machine

/-! ## Helpers -/

/-- The reference chip right after reset. -/
def ref : State := State.resetWith Config.reference

/-- A chip with 8 registers, the given RAM and ROM sizes and policy, right after reset. -/
def chip (ram rom : Nat) (p : FaultPolicy) : State := State.resetWith ⟨8, ram, rom, p⟩

/-- `s` with `bs` in the instruction space at address `a` and `pc = a`. -/
def codeAt (s : State) (a : Byte) (bs : List Byte) : State := (s.setPc a).placeBytes a bs

/-- The outcome is a next state of which `p` holds. -/
def nextHas (o : Host.Outcome State Fault Refusal) (p : State → Bool) : Bool :=
  match o with
  | .next t => p t
  | .fault _ => false
  | .refused _ => false

/-- `FAULT` as the vectors write it: kind, pc, space, value, in numbers. -/
def faultIs (t : State) (kind : BitVec 2) (pc : Byte) (space : BitVec 3) (value : Byte) : Bool :=
  t.fault.kind.code == kind && t.fault.pc == pc && t.fault.space.code == space &&
    t.fault.value == value

/-! ## Well-formedness: one ill-formed term for each check of R91 -/

theorem test_wellFormed_refuses_each_bad_operand :
    Instr.wellFormed Config.reference (.add 8 0) = false ∧
    Instr.wellFormed Config.reference (.add 0 8) = false ∧
    Instr.wellFormed Config.reference (.bst 0 8) = false ∧
    Instr.wellFormed Config.reference (.push 8) = false ∧
    Instr.wellFormed Config.reference (.bst 7 7) = true ∧
    Instr.wellFormed Config.reference (.bset 15) = true := by decide

/-! ## Decoding: every row, from words written out by R81 and R87 -/

theorem test_decode_arith :
    decode [0b00010000, 0b0001_0010] = .ok (.add 1 2, []) ∧
    decode [0b00010001, 0b0010_0011] = .ok (.adc 2 3, []) ∧
    decode [0b00010010, 0b0111_1111] = .ok (.sub 7 15, []) ∧
    decode [0b00010011, 0b1111_0000] = .ok (.sbc 15 0, []) ∧
    decode [0b00010100, 0b0100_0101] = .ok (.and 4 5, []) ∧
    decode [0b00010101, 0b0011_1111] = .ok (.asr 3, []) :=
  ⟨rfl, rfl, rfl, rfl, rfl, rfl⟩

theorem test_decode_bits :
    decode [0b00100000, 0b1111_0111] = .ok (.bset 15, []) ∧
    decode [0b00100001, 0b0110_0000] = .ok (.bclr 6, []) ∧
    decode [0b00100010, 0b0011_0111] = .ok (.bst 3 7, []) ∧
    decode [0b00100011, 0b1001_1111] = .ok (.bld 9 15, []) :=
  ⟨rfl, rfl, rfl, rfl⟩

theorem test_decode_control :
    decode [0b00000000] = .ok (.nop, []) ∧
    decode [0b00110000, 0b1000_1010, 0b00000101] = .ok (.brbs 8 0x05, []) ∧
    decode [0b00110001, 0b0001_0000, 0b11110000] = .ok (.brbc 1 0xF0, []) ∧
    decode [0b00110010, 0b01000000] = .ok (.jmp 0x40, []) ∧
    decode [0b00110011, 0b00100000] = .ok (.call 0x20, []) ∧
    decode [0b00110100, 0b00110100] = .ok (.ret, [0x34]) :=
  ⟨rfl, rfl, rfl, rfl, rfl, rfl⟩

theorem test_decode_data :
    decode [0b01000000, 0b0011_1111, 0b10011001] = .ok (.ldi 3 0x99, []) ∧
    decode [0b01000001, 0b0001_0010] = .ok (.mov 1 2, []) ∧
    decode [0b01000010, 0b0000_0001] = .ok (.ld 0 1, []) ∧
    decode [0b01000011, 0b0001_0000] = .ok (.st 1 0, []) ∧
    decode [0b01000100, 0b0010_0000] = .ok (.push 2, []) ∧
    decode [0b01000101, 0b0101_0000] = .ok (.pop 5, []) :=
  ⟨rfl, rfl, rfl, rfl, rfl, rfl⟩

/-- The table's numbering (R93): byte 0 most significant. -/
theorem test_decodeTableWord :
    decodeTableWord 8 0x34 = some .ret ∧ decodeTableWord 16 0x1001 = some (.add 0 1) ∧
    decodeTableWord 24 0x3110F0 = some (.brbc 1 0xF0) ∧ decodeTableWord 16 0xFF00 = none :=
  ⟨rfl, rfl, rfl, rfl⟩

/-- A placed word is what the next step runs, on a chip without and with a ROM. -/
theorem test_withFetchWord :
    nextHas (step (State.reset.withFetchWord 24 0x4030C8)) (fun t => t.reg 3 == 0xC8 && t.pc == 3) ∧
    nextHas (step ((chip 256 16 .halt).withFetchWord 16 0x3240)) (fun t => t.pc == 0x40) := by
  decide

/-- Host lookup by mnemonic (R93). -/
theorem test_ofMnemonic : Opcode.ofMnemonic "BRBC" = some .brbc ∧ Opcode.ofMnemonic "OR" = none := by
  decide

/-! ## Arithmetic, logic, shift (95_test_vectors.md 2.1) -/

theorem test_add_source_example :
    nextHas (step (codeAt ((ref.setReg 0 0xC8).setReg 1 0x64) 0 [0x10, 0x01]))
      (fun t => t.reg 0 == 0x2C && t.reg 1 == 0x64 && t.flags == 0x4000 && t.pc == 0x02) := by decide

theorem test_add_keeps_other_flags :
    nextHas (exec (.add 0 1) (((ref.setReg 0 0x12).setReg 1 0x34).setFlags 0xFFFF))
      (fun t => t.reg 0 == 0x46 && t.flags == 0x19FF) := by decide

theorem test_adc_largest_sum :
    nextHas (exec (.adc 0 1) (((ref.setReg 0 0xFF).setReg 1 0xFF).setFlags 0x4000))
      (fun t => t.reg 0 == 0xFF && t.flags == 0x4600) := by decide

theorem test_adc_minus128_plus_127_plus_1 :
    nextHas (exec (.adc 0 1) (((ref.setReg 0 0x80).setReg 1 0x7F).setFlags 0x4000))
      (fun t => t.reg 0 == 0x00 && t.flags == 0xC400) := by decide

theorem test_sub_signed_overflow :
    nextHas (exec (.sub 0 1) ((ref.setReg 0 0x7F).setReg 1 0xFF))
      (fun t => t.reg 0 == 0x80 && t.flags == 0x6200) := by decide

theorem test_sub_ignores_carry :
    nextHas (exec (.sub 0 1) (((ref.setReg 0 0x10).setReg 1 0x01).setFlags 0x4000))
      (fun t => t.reg 0 == 0x0F && t.flags == 0x0400) := by decide

theorem test_sbc_minus_256 :
    nextHas (exec (.sbc 0 1) (((ref.setReg 0 0x00).setReg 1 0xFF).setFlags 0x4000))
      (fun t => t.reg 0 == 0x00 && t.flags == 0xC400) := by decide

theorem test_sbc_same_register :
    nextHas (exec (.sbc 0 0) ((ref.setReg 0 0x9D).setFlags 0x4000))
      (fun t => t.reg 0 == 0xFF && t.flags == 0x4600) := by decide

theorem test_and_keeps_c_v_h :
    nextHas (exec (.and 0 1) (((ref.setReg 0 0xF0).setReg 1 0x0F).setFlags 0x6400))
      (fun t => t.reg 0 == 0x00 && t.flags == 0xE400) := by decide

theorem test_asr_keeps_sign_v_h :
    nextHas (exec (.asr 0) ((ref.setReg 0 0x80).setFlags 0x2400))
      (fun t => t.reg 0 == 0xC0 && t.flags == 0x2600) := by decide

theorem test_asr_clears_stale_flags :
    nextHas (exec (.asr 0) ((ref.setReg 0 0x02).setFlags 0xC200))
      (fun t => t.reg 0 == 0x01 && t.flags == 0x0000) := by decide

/-! ## Bits (2.2) -/

theorem test_bset_unnamed_bit :
    nextHas (step (codeAt ref 0 [0x20, 0xF7])) (fun t => t.flags == 0x0001 && t.pc == 2) := by decide

theorem test_bclr_zero_only :
    nextHas (exec (.bclr 0) (ref.setFlags 0xFFFF)) (fun t => t.flags == 0x7FFF) := by decide

theorem test_bst_lsb0 :
    nextHas (exec (.bst 0 3) ((ref.setReg 0 0x08).setFlags 0x4000))
      (fun t => t.flags == 0x4080 && t.reg 0 == 0x08) := by decide

theorem test_bst_bit_out_of_range :
    nextHas (step (codeAt ref 0 [0x22, 0x08])) (fun t => faultIs t 2 0 3 8 && t.pc == 0) := by decide

theorem test_bld_reads_only_transfer :
    nextHas (exec (.bld 1 0) ((ref.setReg 1 0x00).setFlags 0xFF7F)) (fun t => t.reg 1 == 0x00) ∧
    nextHas (exec (.bld 2 0) ((ref.setReg 2 0xFE).setFlags 0x0080)) (fun t => t.reg 2 == 0xFF) := by
  decide

theorem test_bld_register_before_bit :
    nextHas (step (codeAt ref 0 [0x23, 0x9F])) (fun t => faultIs t 2 0 2 9) := by decide

/-! ## Control (2.3) -/

theorem test_nop_wraps : nextHas (exec .nop (ref.setPc 0xFF)) (fun t => t.pc == 0x00) := by decide

theorem test_brbs_offset_minus_128 :
    nextHas (exec (.brbs 1 0x80) ((ref.setPc 0x02).setFlags 0x4000)) (fun t => t.pc == 0x82) ∧
    nextHas (exec (.brbs 1 0xFD) (ref.setPc 0x06)) (fun t => t.pc == 0x09) := by decide

theorem test_brbc_both_ways :
    nextHas (exec (.brbc 1 0xF0) (ref.setPc 0x20)) (fun t => t.pc == 0x10) ∧
    nextHas (exec (.brbc 1 0xF0) ((ref.setPc 0x20).setFlags 0x4000)) (fun t => t.pc == 0x23) := by
  decide

/-- Operand bytes fetched at FF and 00; the target wraps. -/
theorem test_brbc_fetch_wraps :
    nextHas (step (codeAt ref 0xFE [0x31, 0x00, 0x05])) (fun t => t.pc == 0x03) := by decide

theorem test_jmp : nextHas (exec (.jmp 0x40) (ref.setPc 0x9A)) (fun t => t.pc == 0x40) := by decide

theorem test_call_return_address_wraps :
    nextHas (step ((codeAt ref 0xFF [0x33, 0x20]).setSp 0x80))
      (fun t => Memory.read t.ram 0x7F == 0x01 && t.sp == 0x7F && t.pc == 0x20) := by decide

theorem test_call_outside_ram :
    nextHas (exec (.call 0x20) (chip 128 0 .halt))
      (fun t => faultIs t 2 0 4 0xFF && t.sp == 0 && t.pc == 0) := by decide

theorem test_ret :
    nextHas (exec .ret ((ref.setRam [(0xFF, 0x12)]).setSp 0xFF))
      (fun t => t.pc == 0x12 && t.sp == 0x00) := by decide

theorem test_ret_outside_ram :
    nextHas (step ((codeAt (chip 64 0 .skip) 0 [0x34]).setSp 0x40))
      (fun t => faultIs t 2 0 4 0x40 && t.sp == 0x40 && t.pc == 1) := by decide

/-! ## Data movement and stack (2.4) -/

theorem test_ldi_fetch_wraps :
    nextHas (step (codeAt ref 0xFE [0x40, 0x30, 0x99])) (fun t => t.reg 3 == 0x99 && t.pc == 0x01) := by
  decide

theorem test_mov :
    nextHas (exec (.mov 1 2) ((ref.setReg 2 0x5A).setFlags 0xFFFF))
      (fun t => t.reg 1 == 0x5A && t.flags == 0xFFFF) := by decide

theorem test_ld_pointer_replaced :
    nextHas (exec (.ld 1 1) ((ref.setReg 1 0x20).setRam [(0x20, 0x33)])) (fun t => t.reg 1 == 0x33) := by
  decide

theorem test_ld_reads_ram_not_rom :
    nextHas (step (codeAt ((chip 256 16 .halt).setReg 0 0x00) 0 [0x42, 0x10]))
      (fun t => t.reg 1 == 0x00) := by decide

theorem test_st_same_register :
    nextHas (exec (.st 1 1) (ref.setReg 1 0x20)) (fun t => t.ram == [(0x20, 0x20)]) := by decide

theorem test_st_outside_ram :
    nextHas (step (codeAt (((chip 64 0 .skip).setReg 0 0x40).setReg 1 0xAA) 0 [0x43, 0x01]))
      (fun t => faultIs t 2 0 4 0x40 && t.pc == 2) := by decide

theorem test_push_first_after_reset :
    nextHas (exec (.push 2) (ref.setReg 2 0xAB))
      (fun t => Memory.read t.ram 0xFF == 0xAB && t.sp == 0xFF && t.pc == 2) := by decide

theorem test_pop_wraps :
    nextHas (exec (.pop 5) ((ref.setRam [(0xFF, 0xAB)]).setSp 0xFF))
      (fun t => t.reg 5 == 0xAB && t.sp == 0x00 && t.ram == [(0xFF, 0xAB)]) := by decide

theorem test_pop_leaves_sp_outside_ram :
    nextHas (exec (.pop 2) (((chip 64 0 .halt).setRam [(0x3F, 0x5A)]).setSp 0x3F))
      (fun t => t.reg 2 == 0x5A && t.sp == 0x40) := by decide

/-! ## Faults and lifecycle (2.5, 1.3, 1.4) -/

theorem test_illegal_opcode_both_policies :
    nextHas (step (codeAt (ref.setReg 0 7) 0 [0xFF]))
      (fun t => faultIs t 1 0 0 0xFF && t.pc == 0 && t.reg 0 == 7 && t.run == .constructed) ∧
    nextHas (step (codeAt (chip 256 0 .skip).boot 0 [0xFF]))
      (fun t => faultIs t 1 0 0 0xFF && t.pc == 1 && t.run == .halted) := by decide

theorem test_third_byte_outside :
    nextHas (step (codeAt (chip 128 0 .skip) 0x7E [0x40, 0x00]))
      (fun t => faultIs t 2 0x7E 1 0x80 && t.pc == 0x81) := by decide

theorem test_illegal_before_operand_fetch :
    nextHas (step (codeAt (chip 128 0 .halt) 0x7F [0xEE])) (fun t => faultIs t 1 0x7F 0 0xEE) := by
  decide

theorem test_fetch_outside_rom :
    nextHas (step ((chip 256 16 .skip).setPc 0x10))
      (fun t => faultIs t 2 0x10 1 0x10 && t.pc == 0x11) := by decide

theorem test_asr_ignored_nibble_not_checked :
    nextHas (step (codeAt ref 0 [0x15, 0x8F])) (fun t => faultIs t 2 0 2 8) := by decide

theorem test_both_registers_bad_reports_hi :
    nextHas (step (codeAt ref 0 [0x42, 0x9A])) (fun t => faultIs t 2 0 2 9) := by decide

theorem test_events_boot_halt_boot :
    nextHas (runEvents [.boot, .halt, .boot] (ref.setFlags 0xFFFF))
      (fun t => t.run == .booted && t.flags == 0) ∧
    nextHas (runEvents [.halt] ref) (fun t => t.run == .constructed) ∧
    nextHas (runEvents [.boot, .step] ref) (fun t => t.run == .booted && t.pc == 0) ∧
    nextHas (runEvents [.step] ref) (fun t => t.run == .constructed && t.pc == 1) ∧
    nextHas (runEvents [.boot, .tick, .halt, .reset] ref) (fun t => t == ref) := by decide

theorem test_host_write_wraps_and_checks :
    nextHas (hostWrite (.reg 3 (-56)) ref) (fun t => t.reg 3 == 0xC8) ∧
    nextHas (hostWrite (.reg 8 0) ref) (fun _ => true) = false ∧
    nextHas (hostWrite (.pc 1) ref.boot) (fun _ => true) = false := by decide

/-! ## Witnesses: states and operands that meet the hypotheses of each statement, clause by clause -/

/-- The reference chip with registers, flags, stack and RAM in use, about to run `ST (r1), r0`. -/
def busy : State :=
  ((((codeAt ref 0x10 [0x43, 0x10]).setReg 0 0x2C).setReg 1 0x80).setSp 0x01).setFlags 0x4080

/-- A chip with 64 bytes of RAM whose registers 0 and 1 hold the last address inside and the first
outside, with `sp` at the last address inside. -/
def small : State := (((chip 64 0 .halt).setReg 0 0x3F).setReg 1 0x40).setSp 0x3F

theorem busy_inv : busy.Inv :=
  ⟨by decide, by decide, by decide, by decide, by decide, by decide, by decide⟩

theorem witness_DecodeTakesTheLengthOfTheOpcode :
    decode [0x34, 0x01] = .ok (.ret, [0x01]) ∧ Opcode.format .ret = .n ∧
    decode [0x10, 0x01, 0x02] = .ok (.add 0 1, [0x02]) ∧ Opcode.format .add = .p ∧
    decode [0x32, 0x40] = .ok (.jmp 0x40, []) ∧ Opcode.format .jmp = .k ∧
    decode [0x40, 0x30, 0xC8] = .ok (.ldi 3 0xC8, []) ∧ Opcode.format .ldi = .pk :=
  ⟨rfl, rfl, rfl, rfl, rfl, rfl, rfl, rfl⟩

theorem witness_ExactlyTheIgnoredNibbleIsNotRead :
    ignoresLo .asr ∧ hiNibble 0x30 = hiNibble 0x3F ∧
    decode [0x15, 0x30] = .ok (.asr 3, []) ∧ decode [0x15, 0x3F] = .ok (.asr 3, []) ∧
    ¬ ignoresLo (Instr.opcode (.add 0 1)) ∧ decode [0x10, 0x01] = .ok (.add 0 1, []) :=
  ⟨.inl rfl, rfl, rfl, rfl, by simp [ignoresLo, Instr.opcode], rfl⟩

theorem witness_ExactlyTheListedOpcodesAreIllegal :
    (codeAt ref 0 [0xFF]).cfg.legal = true ∧ (codeAt ref 0 [0xFF]).ifetch 0 = .ok 0xFF ∧
    (codeAt ref 0 [0x46]).ifetch 0 = .ok 0x46 ∧ illegalOpcode 0x01 = true ∧
    illegalOpcode 0x0F = true ∧ illegalOpcode 0x16 = true ∧ illegalOpcode 0x46 = true ∧
    illegalOpcode 0xFF = true ∧ illegalOpcode 0x45 = false ∧ illegalOpcode 0x10 = false := by decide

theorem witness_StepRunsTheDecodedInstruction :
    busy.cfg.legal = true ∧ busy.ifetch busy.pc = .ok 0x43 ∧ busy.ifetch (busy.pc + 1) = .ok 0x10 ∧
    decode [0x43, 0x10] = .ok (.st 1 0, []) :=
  ⟨rfl, rfl, rfl, rfl⟩

theorem witness_FetchFaultsInOrder :
    let s := codeAt (chip 128 0 .halt) 0x7E [0x40, 0x00]
    let u := codeAt (chip 128 0 .halt) 0x7F [0x10]
    s.cfg.legal = true ∧ imemSize s.cfg ≤ (s.setPc 0x80).pc.toNat ∧
    (codeAt s 0x7F [0xEE]).ifetch 0x7F = .ok 0xEE ∧ Opcode.ofByte 0xEE = none ∧
    u.ifetch u.pc = .ok 0x10 ∧ Opcode.ofByte 0x10 = some .add ∧ 2 ≤ Opcode.len .add ∧
    imemSize u.cfg ≤ (u.pc + 1).toNat ∧
    s.ifetch s.pc = .ok 0x40 ∧ Opcode.ofByte 0x40 = some .ldi ∧ Opcode.len .ldi = 3 ∧
    (s.pc + 1).toNat < imemSize s.cfg ∧ imemSize s.cfg ≤ (s.pc + 2).toNat ∧
    (codeAt s 0x7E [0x10, 0x01]).ifetch 0x7E = .ok 0x10 ∧
    (∀ n, n < Opcode.len .add → (s.pc + BitVec.ofNat 8 n).toNat < imemSize s.cfg) := by decide

theorem witness_IllegalConfigurationIsRefused :
    Config.legal ⟨17, 256, 0, .halt⟩ = false ∧ Config.legal ⟨0, 256, 0, .halt⟩ = false ∧
    Config.legal ⟨8, 0, 0, .halt⟩ = false ∧ Config.legal ⟨8, 257, 0, .halt⟩ = false ∧
    Config.legal ⟨8, 256, 257, .skip⟩ = false ∧ Config.legal ⟨1, 1, 0, .skip⟩ = true ∧
    Config.legal ⟨16, 256, 256, .skip⟩ = true ∧ (chip 257 0 .halt).cfg.legal = false := by decide

theorem witness_EveryCycleGivesANextState : busy.cfg.legal = true := rfl

theorem witness_CycleFaultsExactlyByThePriorityOrder :
    small.cfg.legal = true ∧ cycleFault (small.setPc 0x40) = some (.imem 0x40) ∧
    cycleFault (codeAt small 0 [0x42, 0x9A]) = some (.reg 9) ∧
    (codeAt small 0 [0x42, 0x9A]).ifetch 0 = .ok 0x42 ∧ Opcode.ofByte 0x42 = some .ld ∧
    cycleFault (codeAt small 0 [0x43, 0x01]) = none ∧
    cycleFault (codeAt small 0 [0x43, 0x10]) = some (.ram 0x40) := by decide

theorem witness_ExecutionFaultsExactlyOnOutOfRangeOperands :
    execFault small (.add 8 9) = some (.reg 8) ∧ execFault small (.add 7 9) = some (.reg 9) ∧
    execFault small (.bst 7 8) = some (.bit 8) ∧ execFault small (.ld 0 1) = some (.ram 0x40) ∧
    execFault small (.ld 0 0) = none := by decide

theorem witness_EveryCycleKeepsInv : busy.Inv ∧ ∃ t, step busy = .next t := ⟨busy_inv, _, rfl⟩

theorem witness_ResetMeetsInv : Config.legal ⟨16, 64, 16, .skip⟩ = true := rfl

theorem witness_EveryRunOfHostEventsKeepsInv :
    busy.Inv ∧ ∃ t, runEvents [.step, .write (.ram 5 300), .boot, .tick, .halt] busy = .next t :=
  ⟨busy_inv, _, rfl⟩

theorem witness_ResetZeroesEveryPieceOfState : Config.legal ⟨1, 1, 256, .halt⟩ = true := rfl

theorem witness_OnlyTheDeclaredFlagsChange :
    (∃ t, exec (.and 0 1) busy = .next t) ∧ (3 : FlagIdx) ∉ writtenFlags (.and 0 1) :=
  ⟨⟨_, rfl⟩, by decide⟩

theorem witness_OnlyTheDestinationRegisterChanges :
    (∃ t, exec (.mov 2 1) busy = .next t) ∧ destReg (.mov 2 1) ≠ some 1 :=
  ⟨⟨_, rfl⟩, by decide⟩

theorem witness_OnlyTheStoredByteOfMemoryChanges :
    Memory.wf busy.ram = true ∧ (∃ t, exec (.st 1 0) busy = .next t) ∧
    storeAddr busy (.st 1 0) = some 0x80 ∧ storeAddr busy (.push 0) = some 0x00 :=
  ⟨by decide, ⟨_, rfl⟩, by decide, by decide⟩

theorem witness_OnlyStackInstructionsMoveTheStackPointer :
    (∃ t, exec (.ldi 0 1) busy = .next t) ∧ usesStack (.ldi 0 1) = false ∧
    (∃ t, exec (.push 0) busy = .next t) ∧ usesStack (.push 0) = true :=
  ⟨⟨_, rfl⟩, rfl, ⟨_, rfl⟩, rfl⟩

theorem witness_OnlyAFaultStopsABootedMachine :
    (∃ t, step busy.boot = .next t) ∧ cycleFault busy.boot = none ∧
    (∃ t, step (codeAt ref 0 [0xFF]).boot = .next t) ∧
    cycleFault (codeAt ref 0 [0xFF]).boot = some (.illegal 0xFF) :=
  ⟨⟨_, rfl⟩, by decide, ⟨_, rfl⟩, by decide⟩

theorem witness_NoCycleWritesTheInstructionSpaceOfARomChip :
    let s := codeAt (chip 256 16 .halt) 0 [0x43, 0x00]
    0 < s.cfg.romSize ∧ ∃ t, step s = .next t :=
  ⟨by decide, _, rfl⟩

theorem witness_StoredBytesAreFetchedNext :
    busy.cfg.romSize = 0 ∧ Memory.wf busy.ram = true ∧ execFault busy (.st 1 0) = none ∧
    (∃ t, exec (.st 1 0) busy = .next t) ∧ execFault busy (.push 0) = none ∧
    (∃ t, exec (.push 0) busy = .next t) ∧ execFault busy (.call 0x20) = none ∧
    (∃ t, exec (.call 0x20) busy = .next t) :=
  ⟨rfl, by decide, by decide, ⟨_, rfl⟩, by decide, ⟨_, rfl⟩, by decide, ⟨_, rfl⟩⟩

theorem witness_NoInstructionReadsRomAsData : ∃ t, exec (.ld 0 1) busy = .next t := ⟨_, rfl⟩

theorem witness_OnlyFiveInstructionsReadAFlag :
    (∀ j ∈ readFlags (.add 0 1), getFlag 0 j = getFlag busy.flags j) ∧
    (∀ j ∈ readFlags (.adc 0 1), getFlag 0x4001 j = getFlag busy.flags j) ∧
    busy.flags ≠ 0x4001 ∧ execFault busy (.adc 0 1) = none ∧ execFault busy (.adc 0 8) ≠ none ∧
    (∃ t, exec (.add 0 1) busy = .next t) ∧ (∃ t, exec (.adc 0 1) busy = .next t) ∧
    ∃ t, exec (.adc 0 8) busy = .next t :=
  ⟨by decide, by decide, by decide, by decide, by decide, ⟨_, rfl⟩, ⟨_, rfl⟩, _, rfl⟩

theorem witness_NoInstructionReadsFaultOrRun :
    (∃ t, exec (.pop 0) busy = .next t) ∧ execFault busy (.pop 0) = none ∧
    (∃ t, exec (.pop 8) busy = .next t) ∧ execFault busy (.pop 8) ≠ none :=
  ⟨⟨_, rfl⟩, by decide, ⟨_, rfl⟩, by decide⟩

theorem witness_AddSumsAndSetsFiveFlags :
    RegExists busy 7 ∧ RegExists busy 1 ∧ ¬ RegExists busy 8 := by decide

theorem witness_AdcSumsWithCarryAndSetsFiveFlags :
    RegExists busy 0 ∧ RegExists busy 7 ∧ ¬ RegExists busy 8 ∧ busy.flag .carry = true := by decide

theorem witness_SubSubtractsAndSetsFiveFlags :
    RegExists busy 1 ∧ RegExists busy 0 ∧ ¬ RegExists busy 8 := by decide

theorem witness_SbcSubtractsWithBorrowAndSetsFiveFlags :
    RegExists busy 7 ∧ RegExists busy 7 ∧ ¬ RegExists busy 15 ∧ busy.flag .carry = true := by decide

theorem witness_AndMasksBitByBit : RegExists busy 0 ∧ RegExists busy 1 ∧ ¬ RegExists busy 8 := by
  decide

theorem witness_AsrShiftsRightKeepingTheSign : RegExists busy 7 ∧ ¬ RegExists busy 8 := by decide

theorem witness_BstCopiesARegisterBitToTransfer :
    RegExists busy 1 ∧ (7 : BitIdx).val < 8 ∧ ¬ RegExists busy 8 ∧ 8 ≤ (8 : BitIdx).val := by decide

theorem witness_BldCopiesTransferToARegisterBit :
    RegExists busy 0 ∧ (0 : BitIdx).val < 8 ∧ ¬ RegExists busy 9 ∧ 8 ≤ (15 : BitIdx).val ∧
    busy.flag .transfer = true := by decide

theorem witness_BstThenBldRestoresTheRegister : RegExists busy 1 ∧ (7 : BitIdx).val < 8 := by decide

theorem witness_BrbsBranchesWhenTheFlagIsSet :
    getFlag busy.flags 1 = true ∧ getFlag busy.flags 0 = false := by decide

theorem witness_BrbcBranchesWhenTheFlagIsClear :
    getFlag busy.flags 15 = false ∧ getFlag busy.flags 8 = true := by decide

theorem witness_CallPushesTheReturnAddressAndJumps :
    (small.sp - 1).toNat < small.cfg.ramSize ∧ Memory.wf small.ram = true ∧
    small.cfg.ramSize ≤ ((small.setSp 0x41).sp - 1).toNat ∧
    ((small.setSp 0x40).sp - 1).toNat < small.cfg.ramSize := by decide

theorem witness_RetPopsTheProgramCounter :
    small.sp.toNat < small.cfg.ramSize ∧ small.cfg.ramSize ≤ (small.setSp 0x40).sp.toNat := by decide

theorem witness_CallThenRetContinuesAfterTheCall :
    Memory.wf busy.ram = true ∧ (busy.sp - 1).toNat < busy.cfg.ramSize := by decide

theorem witness_LdiLoadsTheConstant : RegExists busy 7 ∧ ¬ RegExists busy 8 := by decide

theorem witness_MovCopiesTheRegister : RegExists busy 7 ∧ RegExists busy 0 ∧ ¬ RegExists busy 8 := by
  decide

theorem witness_LdLoadsTheByteThePointerNames :
    RegExists small 2 ∧ RegExists small 0 ∧ (small.reg 0).toNat < small.cfg.ramSize ∧
    ¬ RegExists small 8 ∧ RegExists small 1 ∧ small.cfg.ramSize ≤ (small.reg 1).toNat := by decide

theorem witness_StStoresTheByteAtThePointer :
    RegExists small 0 ∧ RegExists small 1 ∧ (small.reg 0).toNat < small.cfg.ramSize ∧
    Memory.wf small.ram = true ∧ ¬ RegExists small 8 ∧
    small.cfg.ramSize ≤ (small.reg 1).toNat := by decide

theorem witness_PushStoresBelowTheStackPointer :
    RegExists small 7 ∧ ((small.setSp 0x40).sp - 1).toNat < small.cfg.ramSize ∧
    Memory.wf small.ram = true ∧ ¬ RegExists small 8 ∧
    small.cfg.ramSize ≤ ((small.setSp 0x00).sp - 1).toNat := by decide

theorem witness_PopLoadsAtTheStackPointer :
    RegExists small 7 ∧ small.sp.toNat < small.cfg.ramSize ∧ ¬ RegExists small 8 ∧
    small.cfg.ramSize ≤ (small.setSp 0x40).sp.toNat := by decide

theorem witness_PushThenPopCopiesTheRegister :
    Memory.wf busy.ram = true ∧ RegExists busy 0 ∧ RegExists busy 7 ∧
    (busy.sp - 1).toNat < busy.cfg.ramSize := by decide

theorem witness_BootClearsTheFlagsAndNothingElse :
    busy.run ≠ .booted ∧ busy.boot.run = .booted := by decide

theorem witness_HaltStopsOnlyABootedMachine :
    busy.run ≠ .booted ∧ busy.boot.run = .booted := by decide

theorem witness_StepAndTickNeverBothRunACycle :
    busy.run ≠ .booted ∧ busy.boot.run = .booted := by decide

theorem witness_ResetEqualsConstructionAfterAnyRun :
    busy.cfg.legal = true ∧ ∃ t, runEvents [.boot, .tick, .halt] busy = .next t :=
  ⟨rfl, _, rfl⟩

theorem witness_HostWritesReadBackWhileNotBooted :
    let s := codeAt (chip 64 16 .halt) 0 [0x43, 0x00]
    Memory.wf s.ram = true ∧ Memory.wf s.rom = true ∧ s.cfg.legal = true ∧ s.boot.run = .booted ∧
    s.run ≠ .booted ∧ RegExists s 7 ∧ s.cfg.nregs ≤ 8 ∧ 63 < s.cfg.ramSize ∧ s.cfg.ramSize ≤ 64 ∧
    15 < s.cfg.romSize ∧ s.cfg.romSize ≤ 16 := by decide

theorem witness_OnlyResetClearsTheFaultRegister :
    nextHas (runEvents [.boot, .tick, .step, .halt] (codeAt ref 0 [0xFF]))
      (fun t => t.fault.kind != .none) ∧
    HostEvent.step ≠ .reset ∧ nextHas (hostEvent .step (codeAt ref 0 [0xFF]))
      (fun t => decide (t.fault = ⟨.illegalInstruction, 0, .none, 0xFF⟩)) ∧
    HostEvent.boot ≠ .reset ∧ nextHas (hostEvent .boot busy) (fun t => decide (t.fault = busy.fault)) ∧
    HostEvent.reset ∉ [HostEvent.step, .write (.pc 5), .step] ∧
    nextHas (step (codeAt ref 0 [0xFF]))
      (fun u => u.fault.kind != .none &&
        nextHas (runEvents [.step, .write (.pc 5), .step] u) (fun _ => true)) := by decide

theorem witness_NoTickRunsAfterAFault :
    let s := (codeAt ref 0 [0xFF]).boot
    s.cfg.legal = true ∧ s.run = .booted ∧ cycleFault s = some (.illegal 0xFF) := by decide

theorem witness_SafeRunsCompleteAndRecordNoFault : busy.cfg.legal = true ∧ SafeFor 2 busy := by
  refine ⟨rfl, by decide, fun t ht => ?_⟩
  cases ht
  exact ⟨by decide, fun _ _ => trivial⟩

end Sys2Proof.Tests
end

