-- ==== Sys2Proof/Proofs/FlagsAggregate.lean ====
section
/-! PROOF. The flag register as one number and as a table of masks (R10, R26): a natural number is the
sum of its bits, and masking a word by one power of two tests one bit. -/

namespace Sys2Proof.Machine

/-! ## A word as the sum of its bits -/

/-- Bits numbered from the least significant one, weighted by their powers of two. -/
theorem ofBits_eq_sum {n : Nat} (f : Fin n → Bool) :
    Nat.ofBits f = ∑ i, (f i).toNat * 2 ^ i.val := by
  induction n with
  | zero => rfl
  | succ n ih =>
    rw [Nat.ofBits_succ, ih, Fin.sum_univ_succ, Finset.mul_sum, Nat.add_comm]
    congr 1
    · simp
    · exact Finset.sum_congr rfl fun i _ => by simp only [Function.comp, Fin.val_succ]; ring

/-- A word is the sum of its bits, each at its place. -/
theorem toNat_eq_sum_getLsbD {n : Nat} (w : BitVec n) :
    w.toNat = ∑ i : Fin n, (w.getLsbD i.val).toNat * 2 ^ i.val :=
  calc w.toNat = w.toNat % 2 ^ n := (Nat.mod_eq_of_lt w.isLt).symm
    _ = Nat.ofBits (fun i : Fin n => w.getLsbD i.val) := (Nat.ofBits_testBit _ _).symm
    _ = _ := ofBits_eq_sum _

/-- The aggregate is the sum of the flags, index 0 the most significant: the place of index `i` is that
of `i` counted from the other end (R10). -/
theorem flagWord_toNat_eq_sum (w : FlagWord) :
    w.toNat = ∑ i : FlagIdx, (getFlag w i).toNat * 2 ^ (15 - i.val) := by
  rw [toNat_eq_sum_getLsbD, ← Equiv.sum_comp Fin.revPerm]
  refine Finset.sum_congr rfl fun i _ => ?_
  have hrev : (Fin.revPerm i).val = 15 - i.val := by
    rw [Fin.revPerm_apply, Fin.val_rev]; omega
  rw [hrev, getFlag]

/-! ## A flag as a mask -/

/-- Masking by one power of two tests that one bit. -/
theorem decide_and_twoPow_ne_zero {n : Nat} (w : BitVec n) {i : Nat} (hi : i < n) :
    decide (w &&& BitVec.twoPow n i ≠ 0#n) = w.getLsbD i := by
  have hbit : BitVec.twoPow n i ≠ 0#n := fun h => by
    have := congrArg (·.getLsbD i) h
    simp [hi] at this
  rw [BitVec.and_twoPow]
  cases w.getLsbD i <;> simp [hbit]

/-- The flag at index `i` is bit `15 - i` of the aggregate, taken by its mask (R26). -/
theorem getFlag_eq_decide_and_mask (w : FlagWord) (i : FlagIdx) :
    getFlag w i = decide (w &&& (0x8000#16 >>> i.val) ≠ 0#16) := by
  have hmask : ∀ i : FlagIdx, 0x8000#16 >>> i.val = BitVec.twoPow 16 (15 - i.val) := by decide
  rw [hmask, decide_and_twoPow_ne_zero w (by omega), getFlag]

/-- A flag stands at its own index, under the mask of that index. -/
theorem flagAt_index (f : Flag) : FlagAt f f.index (0x8000#16 >>> f.index.val) :=
  fun s => ⟨rfl, getFlag_eq_decide_and_mask s.flags f.index⟩

/-- The flag at index `i` is bit `128 >> (i % 8)` of storage unit `i / 8`, unit 0 the more significant
(R10). -/
theorem getFlag_append (unit0 unit1 : Byte) (i : FlagIdx) :
    getFlag (unit0 ++ unit1) i =
      decide ((if i.val / 8 = 0 then unit0 else unit1) &&& (128#8 >>> (i.val % 8)) ≠ 0#8) := by
  have hmask : ∀ i : FlagIdx, 128#8 >>> (i.val % 8) = BitVec.twoPow 8 (7 - i.val % 8) := by decide
  rw [hmask, decide_and_twoPow_ne_zero _ (by omega), getFlag, BitVec.getLsbD_append]
  by_cases hunit : i.val / 8 = 0
  · rw [if_pos hunit, if_neg (by omega), show 15 - i.val - 8 = 7 - i.val % 8 by omega]
  · rw [if_neg hunit, if_pos (by omega), show 15 - i.val = 7 - i.val % 8 by omega]

/-! ## The obligation -/

/-- Settles O38: the aggregate is the sum of its bits read from the other end, a power of two masks
one bit, and each named flag has the mask of its own index. -/
theorem flagsAggregateIsMostSignificantFirst :
    Obligations.FlagsAggregateIsMostSignificantFirst := by
  refine ⟨fun w => ?_, getFlag_append, flagAt_index .zero, flagAt_index .carry,
    flagAt_index .overflow, flagAt_index .parity, flagAt_index .trap, flagAt_index .halfCarry,
    flagAt_index .sign, flagAt_index .interruptEnable, flagAt_index .transfer⟩
  rw [flagWord_toNat_eq_sum, Fin.sum_univ_def]

end Sys2Proof.Machine
end

