-- ==== Sys2Proof/Proofs/ConstructAndBoot.lean ====
section
/-! PROOF. The two ways a machine is given known contents as a whole: construction (R38, R171), and
`Boot`, which clears the flag register and nothing else (R39, R186). -/

namespace Sys2Proof.Machine

/-- In the cleared flag register no flag is set. -/
@[simp] theorem getFlag_zero (i : FlagIdx) : getFlag 0#16 i = false := BitVec.getLsbD_zero

/-! ## Construction -/

/-- A legal configuration is constructed in its reset state (R38). -/
theorem construct_of_legal {c : Config} (h : c.legal = true) :
    construct c = .next (State.resetWith c) :=
  if_pos h

/-- Settles O15: a legal configuration is constructed in its reset state, whose every field is
zero. -/
theorem resetZeroesEveryPieceOfState : Obligations.ResetZeroesEveryPieceOfState := by
  intro c hlegal
  refine ⟨State.resetWith c, construct_of_legal hlegal, State.resetWith_cfg c, State.resetWith_reg c,
    State.resetWith_pc c, State.resetWith_sp c, getFlag_zero, Memory.read_nil, Memory.read_nil,
    State.resetWith_fault c, State.resetWith_run c⟩

/-! ## Boot -/

/-- A Booted machine is not changed by `Boot` (R186). -/
theorem State.boot_of_booted {s : State} (h : s.run = .booted) : s.boot = s := by
  simp [State.boot, h]

/-- `Boot` clears all sixteen flags of a machine that is not Booted (R39). -/
theorem State.boot_flags_of_idle {s : State} (h : s.run ≠ .booted) : s.boot.flags = 0#16 := by
  cases hr : s.run
  case booted => exact absurd hr h
  all_goals simp [State.boot, hr]

/-- Whatever `RUN` was, `Boot` sets it to Booted and writes no other field but the flags. -/
theorem State.boot_eq (s : State) : s.boot = { s with flags := s.boot.flags, run := .booted } := by
  cases hr : s.run
  case booted => rw [State.boot_of_booted hr, ← hr]
  all_goals simp [State.boot, hr]

@[simp] theorem State.boot_run (s : State) : s.boot.run = .booted := by rw [State.boot_eq]
@[simp] theorem State.boot_cfg (s : State) : s.boot.cfg = s.cfg := by rw [State.boot_eq]
@[simp] theorem State.boot_regs (s : State) : s.boot.regs = s.regs := by rw [State.boot_eq]
@[simp] theorem State.boot_reg (s : State) (j : RegIdx) : s.boot.reg j = s.reg j := by
  rw [State.reg, State.boot_regs, State.reg]
@[simp] theorem State.boot_pc (s : State) : s.boot.pc = s.pc := by rw [State.boot_eq]
@[simp] theorem State.boot_sp (s : State) : s.boot.sp = s.sp := by rw [State.boot_eq]
@[simp] theorem State.boot_fault (s : State) : s.boot.fault = s.fault := by rw [State.boot_eq]
@[simp] theorem State.boot_ram (s : State) : s.boot.ram = s.ram := by rw [State.boot_eq]
@[simp] theorem State.boot_rom (s : State) : s.boot.rom = s.rom := by rw [State.boot_eq]

/-- Settles O53: `Boot` answers `State.boot`, which keeps a Booted machine and clears the flags of any
other; the rest is its frame. -/
theorem bootClearsTheFlagsAndNothingElse : Obligations.BootClearsTheFlagsAndNothingElse := by
  intro s
  refine ⟨s.boot, rfl, s.boot_run, State.boot_of_booted, fun hidle i => ?_, s.boot_reg, s.boot_pc,
    s.boot_sp, fun a => ?_, fun a => ?_, s.boot_fault, s.boot_cfg⟩
  · rw [State.boot_flags_of_idle hidle, getFlag_zero]
  · rw [State.boot_ram]
  · rw [State.boot_rom]

end Sys2Proof.Machine
end

