-- ==== Sys2Proof/Proofs/Decoder.lean ====
section
/-! PROOF. The decoder, said once for every source of bytes: which byte sequences it takes and what it
answers for them, and each way it can fail (R81 to R89). The list decoder's statements follow. -/

namespace Sys2Proof

open Machine (ignoresLo)

/-! ## The bytes of a row -/

/-- The bytes of an instruction of row `o` at ascending addresses, with nibble-pair byte `b1` and
constant `k`; a byte that the row's format does not have is not used (R81). -/
def Opcode.layout (o : Opcode) (b1 k : Byte) : List Byte :=
  match o.format with
  | .n => [o.byte]
  | .p => [o.byte, b1]
  | .k => [o.byte, k]
  | .pk => [o.byte, b1, k]

theorem Opcode.layout_n {o : Opcode} (hf : o.format = .n) (b1 k : Byte) :
    o.layout b1 k = [o.byte] := by
  simp only [layout, hf]

theorem Opcode.layout_p {o : Opcode} (hf : o.format = .p) (b1 k : Byte) :
    o.layout b1 k = [o.byte, b1] := by
  simp only [layout, hf]

theorem Opcode.layout_k {o : Opcode} (hf : o.format = .k) (b1 k : Byte) :
    o.layout b1 k = [o.byte, k] := by
  simp only [layout, hf]

theorem Opcode.layout_pk {o : Opcode} (hf : o.format = .pk) (b1 k : Byte) :
    o.layout b1 k = [o.byte, b1, k] := by
  simp only [layout, hf]

/-- The layout of a row has the row's length (R83). -/
@[simp] theorem Opcode.length_layout (o : Opcode) (b1 k : Byte) : (o.layout b1 k).length = o.len := by
  cases hf : o.format <;> simp [layout, len, Format.len, hf]

theorem Opcode.len_pos (o : Opcode) : 0 < o.len := by
  cases o <;> decide

/-- Byte 0 is the opcode, whatever the format (R81). -/
@[simp] theorem Opcode.layout_getElem?_zero (o : Opcode) (b1 k : Byte) :
    (o.layout b1 k)[0]? = some o.byte := by
  cases hf : o.format <;> simp [layout, hf]

/-! ## The fields of a row -/

/-- A row without operands ignores all three fields. -/
theorem Opcode.build_n {o : Opcode} (hf : o.format = .n) (hi lo : Fin 16) (k : Byte) :
    o.build hi lo k = o.build 0 0 0 := by
  cases o <;> simp [format] at hf <;> rfl

/-- A row of format P ignores the constant. -/
theorem Opcode.build_p {o : Opcode} (hf : o.format = .p) (hi lo : Fin 16) (k : Byte) :
    o.build hi lo k = o.build hi lo 0 := by
  cases o <;> simp [format] at hf <;> rfl

/-- A row of format K ignores the nibbles. -/
theorem Opcode.build_k {o : Opcode} (hf : o.format = .k) (hi lo : Fin 16) (k : Byte) :
    o.build hi lo k = o.build 0 0 k := by
  cases o <;> simp [format] at hf <;> rfl

/-- A row with a nibble pair keeps the high nibble. -/
theorem Opcode.hi_build {o : Opcode} (hf : o.format = .p ∨ o.format = .pk) (hi lo : Fin 16)
    (k : Byte) : (o.build hi lo k).hi = hi := by
  cases o <;> simp [format] at hf <;> rfl

/-- A row with a constant keeps it. -/
theorem Opcode.const_build {o : Opcode} (hf : o.format = .k ∨ o.format = .pk) (hi lo : Fin 16)
    (k : Byte) : (o.build hi lo k).const = k := by
  cases o <;> simp [format] at hf <;> rfl

/-- A row with a nibble pair keeps the low nibble unless R87 marks it ignored. -/
theorem Opcode.lo_build {o : Opcode} (hf : o.format = .p ∨ o.format = .pk) (hlo : ¬ ignoresLo o)
    (hi lo : Fin 16) (k : Byte) : (o.build hi lo k).lo = lo := by
  cases o <;> simp [format] at hf <;> simp [ignoresLo] at hlo <;> rfl

/-- A row marked `lo=ignored` builds the same instruction from any low nibble (R89). -/
theorem Opcode.build_of_ignoresLo {o : Opcode} (h : ignoresLo o) (hi lo lo' : Fin 16) (k : Byte) :
    o.build hi lo k = o.build hi lo' k := by
  rcases h with rfl | rfl | rfl | rfl | rfl | rfl | rfl | rfl <;> rfl

/-- Only rows with a nibble pair have a low nibble to ignore. -/
theorem Opcode.format_of_ignoresLo {o : Opcode} (h : ignoresLo o) :
    o.format = .p ∨ o.format = .pk := by
  rcases h with rfl | rfl | rfl | rfl | rfl | rfl | rfl | rfl <;> simp [format]

/-! ## The decoder over any source of bytes -/

section
variable {ε : Type} {byteAt : Nat → Except ε Byte} {illegal : Byte → ε}

/-- The bytes `bs` stand at the head of the source. -/
def Supplies (byteAt : Nat → Except ε Byte) (bs : List Byte) : Prop :=
  ∀ n b, bs[n]? = some b → byteAt n = .ok b

@[simp] theorem supplies_nil : Supplies byteAt [] := by simp [Supplies]

@[simp] theorem supplies_cons {b : Byte} {bs : List Byte} :
    Supplies byteAt (b :: bs) ↔ byteAt 0 = .ok b ∧ Supplies (fun n => byteAt (n + 1)) bs := by
  refine ⟨fun h => ⟨h 0 b rfl, fun n c hc => h (n + 1) c hc⟩, fun ⟨h0, hs⟩ n c hc => ?_⟩
  cases n with
  | zero => exact h0.trans (congrArg _ (Option.some.inj hc))
  | succ n => exact hs n c hc

/-- The answers of the decoder, in the order of R85: the opcode fetch fails, the opcode has no row, the
second or the third byte fails, or all bytes of a row are there. -/
inductive DecodeAnswer (byteAt : Nat → Except ε Byte) (illegal : Byte → ε) : Except ε Instr → Prop
  | opcodeFails {e : ε} (h0 : byteAt 0 = .error e) : DecodeAnswer byteAt illegal (.error e)
  | noRow {b : Byte} (h0 : byteAt 0 = .ok b) (hb : Opcode.ofByte b = none) :
      DecodeAnswer byteAt illegal (.error (illegal b))
  | secondFails {o : Opcode} {e : ε} (h0 : byteAt 0 = .ok o.byte) (hlen : 2 ≤ o.len)
      (h1 : byteAt 1 = .error e) : DecodeAnswer byteAt illegal (.error e)
  | thirdFails {o : Opcode} {b1 : Byte} {e : ε} (h0 : byteAt 0 = .ok o.byte) (hlen : o.len = 3)
      (h1 : byteAt 1 = .ok b1) (h2 : byteAt 2 = .error e) : DecodeAnswer byteAt illegal (.error e)
  | row {o : Opcode} {b1 k : Byte} (h : Supplies byteAt (o.layout b1 k)) :
      DecodeAnswer byteAt illegal (.ok (o.build (hiNibble b1) (loNibble b1) k))

/-- The decoder gives one of its answers. -/
theorem decodeAnswer_decodeFrom : DecodeAnswer byteAt illegal (decodeFrom byteAt illegal) := by
  unfold decodeFrom
  cases h0 : byteAt 0 with
  | error e => exact .opcodeFails h0
  | ok b0 =>
    cases ho : Opcode.ofByte b0 with
    | none => simpa only [ho] using .noRow h0 ho
    | some o =>
      obtain rfl := Opcode.byte_of_ofByte ho
      simp only [ho]
      cases hf : o.format with
      | n =>
        simpa only [Opcode.build_n hf] using .row (o := o) (b1 := 0) (k := 0)
          (by simpa [Opcode.layout_n hf] using h0)
      | p =>
        cases h1 : byteAt 1 with
        | error e => exact .secondFails h0 (by simp [Opcode.len, hf, Format.len]) h1
        | ok b1 => exact .row (by simpa [Opcode.layout_p hf] using ⟨h0, h1⟩)
      | k =>
        cases h1 : byteAt 1 with
        | error e => exact .secondFails h0 (by simp [Opcode.len, hf, Format.len]) h1
        | ok k =>
          simpa only [Opcode.build_k hf] using .row (o := o) (b1 := 0) (k := k)
            (by simpa [Opcode.layout_k hf] using ⟨h0, h1⟩)
      | pk =>
        cases h1 : byteAt 1 with
        | error e => exact .secondFails h0 (by simp [Opcode.len, hf, Format.len]) h1
        | ok b1 =>
          cases h2 : byteAt 2 with
          | error e => exact .thirdFails h0 (by simp [Opcode.len, hf, Format.len]) h1 h2
          | ok k => exact .row (by simpa [Opcode.layout_pk hf] using ⟨h0, h1, h2⟩)

/-- No source gives the decoder two answers. -/
theorem DecodeAnswer.decodeFrom_eq {r : Except ε Instr} (h : DecodeAnswer byteAt illegal r) :
    decodeFrom byteAt illegal = r := by
  cases h with
  | opcodeFails h0 => simp [decodeFrom, h0]
  | noRow h0 hb => simp [decodeFrom, h0, hb]
  | @secondFails o e h0 hlen h1 =>
    cases hf : o.format
    case n => simp [Opcode.len, Format.len, hf] at hlen
    all_goals simp [decodeFrom, h0, h1, hf]
  | @thirdFails o b1 e h0 hlen h1 h2 =>
    cases hf : o.format
    case pk => simp [decodeFrom, h0, h1, h2, hf]
    all_goals simp [Opcode.len, Format.len, hf] at hlen
  | @row o b1 k h =>
    cases hf : o.format with
    | n =>
      simp only [Opcode.layout_n hf, supplies_cons] at h
      simp [decodeFrom, h, hf, Opcode.build_n hf (hiNibble b1)]
    | p =>
      simp only [Opcode.layout_p hf, supplies_cons] at h
      simp [decodeFrom, h, hf, Opcode.build_p hf _ _ k]
    | k =>
      simp only [Opcode.layout_k hf, supplies_cons] at h
      simp [decodeFrom, h, hf, Opcode.build_k hf (hiNibble b1)]
    | pk =>
      simp only [Opcode.layout_pk hf, supplies_cons] at h
      simp [decodeFrom, h, hf]

/-- What the decoder answers, and when. -/
theorem decodeFrom_eq_iff {r : Except ε Instr} :
    decodeFrom byteAt illegal = r ↔ DecodeAnswer byteAt illegal r :=
  ⟨fun h => h ▸ decodeAnswer_decodeFrom, DecodeAnswer.decodeFrom_eq⟩

end

/-! ## The list decoder -/

@[simp] theorem listByteAt_eq_ok_iff {bs : List Byte} {n : Nat} {b : Byte} :
    listByteAt bs n = .ok b ↔ bs[n]? = some b := by
  unfold listByteAt
  cases bs[n]? <;> simp

/-- A list supplies exactly its prefixes. -/
theorem supplies_listByteAt_iff {bs l : List Byte} : Supplies (listByteAt bs) l ↔ l <+: bs := by
  simp only [Supplies, listByteAt_eq_ok_iff, List.prefix_iff_getElem?]
  exact ⟨fun h n hn => h n _ (List.getElem?_eq_getElem hn),
    fun h n b hb => by
      obtain ⟨hn, rfl⟩ := List.getElem?_eq_some_iff.1 hb
      exact h n hn⟩

/-- The list decoder fails as the decoder does. -/
theorem decode_eq_error {bs : List Byte} {e : DecodeError}
    (h : DecodeAnswer (listByteAt bs) .illegalOpcode (.error e)) : decode bs = .error e := by
  rw [decode, h.decodeFrom_eq]

/-- The bytes of a row decode to what its fields build, whatever follows. -/
theorem decode_layout_append (o : Opcode) (b1 k : Byte) (rest : List Byte) :
    decode (o.layout b1 k ++ rest) = .ok (o.build (hiNibble b1) (loNibble b1) k, rest) := by
  have hrow : DecodeAnswer (listByteAt (o.layout b1 k ++ rest)) .illegalOpcode
      (.ok (o.build (hiNibble b1) (loNibble b1) k)) :=
    .row (supplies_listByteAt_iff.2 (List.prefix_append _ _))
  simp [decode, hrow.decodeFrom_eq]

theorem decode_p {o : Opcode} (hf : o.format = .p) (b1 : Byte) (rest : List Byte) :
    decode (o.byte :: b1 :: rest) = .ok (o.build (hiNibble b1) (loNibble b1) 0, rest) := by
  simpa [Opcode.layout_p hf] using decode_layout_append o b1 0 rest

theorem decode_pk {o : Opcode} (hf : o.format = .pk) (b1 k : Byte) (rest : List Byte) :
    decode (o.byte :: b1 :: k :: rest) = .ok (o.build (hiNibble b1) (loNibble b1) k, rest) := by
  simpa [Opcode.layout_pk hf] using decode_layout_append o b1 k rest

theorem decode_pk_truncated {o : Opcode} (hf : o.format = .pk) (b1 : Byte) :
    decode [o.byte, b1] = .error .truncated :=
  decode_eq_error (.thirdFails rfl (by simp [Opcode.len, hf, Format.len]) rfl rfl)

/-- The list decoder answers nothing else: what it decodes is a row's bytes and the rest (R83). -/
theorem exists_layout_of_decode {bs rest : List Byte} {i : Instr} (h : decode bs = .ok (i, rest)) :
    ∃ (o : Opcode) (b1 k : Byte),
      bs = o.layout b1 k ++ rest ∧ i = o.build (hiNibble b1) (loNibble b1) k := by
  unfold decode at h
  split at h
  next j hj =>
    cases h
    cases decodeFrom_eq_iff.1 hj with
    | @row o b1 k hrow =>
      obtain ⟨tail, rfl⟩ := supplies_listByteAt_iff.1 hrow
      exact ⟨o, b1, k, by simp, rfl⟩
  next => cases h

/-! ## The obligations -/

/-- Settles O3: what decodes is the layout of a row, whose format counts its bytes. -/
theorem decodeTakesTheLengthOfTheOpcode : Obligations.DecodeTakesTheLengthOfTheOpcode := by
  intro bs rest i hdec
  obtain ⟨o, b1, k, rfl, rfl⟩ := exists_layout_of_decode hdec
  refine ⟨o, o.byte, ?_, o.ofByte_byte, o.opcode_build _ _ _, fun hf => ?_, fun hf => ?_, fun hf => ?_⟩
  · rw [List.getElem?_append_left (by simp [Opcode.len_pos]), Opcode.layout_getElem?_zero]
  · exact ⟨_, by rw [Opcode.layout_n hf]; rfl⟩
  · rcases hf with hf | hf
    · exact ⟨_, _, by rw [Opcode.layout_p hf]; rfl⟩
    · exact ⟨_, _, by rw [Opcode.layout_k hf]; rfl⟩
  · exact ⟨_, _, _, by rw [Opcode.layout_pk hf]; rfl⟩

/-- An ignored low nibble changes nothing, not even that an operand byte is missing (R89). -/
theorem decode_congr_ignored_nibble {o : Opcode} {b1 b1' : Byte} (rest : List Byte)
    (hign : ignoresLo o) (hhi : hiNibble b1 = hiNibble b1') :
    decode (o.byte :: b1 :: rest) = decode (o.byte :: b1' :: rest) := by
  have hbuild (k : Byte) : o.build (hiNibble b1) (loNibble b1) k =
      o.build (hiNibble b1') (loNibble b1') k := by
    rw [hhi, Opcode.build_of_ignoresLo hign]
  rcases Opcode.format_of_ignoresLo hign with hf | hf
  · rw [decode_p hf, decode_p hf, hbuild]
  · cases rest with
    | nil => rw [decode_pk_truncated hf, decode_pk_truncated hf]
    | cons k rest => rw [decode_pk hf, decode_pk hf, hbuild]

/-- From the instruction a row builds its nibble pair can be read back, but for an ignored nibble. -/
theorem Opcode.pair_of_build_eq {o : Opcode} {b1 b1' k k' : Byte} (hf : o.format = .p ∨ o.format = .pk)
    (h : o.build (hiNibble b1) (loNibble b1) k = o.build (hiNibble b1') (loNibble b1') k') :
    hiNibble b1 = hiNibble b1' ∧ (¬ ignoresLo o → b1 = b1') := by
  have hhi : hiNibble b1 = hiNibble b1' := by
    simpa only [Opcode.hi_build hf] using congrArg Instr.hi h
  refine ⟨hhi, fun hlo => byte_ext_nibbles hhi ?_⟩
  simpa only [Opcode.lo_build hf hlo] using congrArg Instr.lo h

/-- Lists that differ in their second element at most agree at every other index. -/
theorem getElem?_cons_cons_congr {p : Prop} {a b b' : Byte} {l : List Byte} {n : Nat}
    (h : p → b = b') (hn : n ≠ 1 ∨ p) : (a :: b :: l)[n]? = (a :: b' :: l)[n]? := by
  match n with
  | 0 => rfl
  | 1 => rw [h (by simpa using hn)]
  | _ + 2 => rfl

/-- Two layouts of a row that build one instruction differ at most in an ignored low nibble (R89). -/
theorem Opcode.layout_eq_of_build_eq {o : Opcode} {b1 b1' k k' : Byte}
    (h : o.build (hiNibble b1) (loNibble b1) k = o.build (hiNibble b1') (loNibble b1') k') :
    (∀ n, n ≠ 1 ∨ ¬ ignoresLo o → (o.layout b1 k)[n]? = (o.layout b1' k')[n]?) ∧
      ((o.layout b1 k)[1]?).map hiNibble = ((o.layout b1' k')[1]?).map hiNibble := by
  have hconst (hf : o.format = .k ∨ o.format = .pk) : k = k' := by
    simpa only [Opcode.const_build hf] using congrArg Instr.const h
  cases hf : o.format with
  | n => simp [Opcode.layout_n hf]
  | p =>
    obtain ⟨hhi, hb1⟩ := Opcode.pair_of_build_eq (.inl hf) h
    simp only [Opcode.layout_p hf]
    exact ⟨fun n hn => getElem?_cons_cons_congr hb1 hn, by simp [hhi]⟩
  | k => simp [Opcode.layout_k hf, hconst (.inl hf)]
  | pk =>
    obtain ⟨hhi, hb1⟩ := Opcode.pair_of_build_eq (.inr hf) h
    simp only [Opcode.layout_pk hf, hconst (.inr hf)]
    exact ⟨fun n hn => getElem?_cons_cons_congr hb1 hn, by simp [hhi]⟩

/-- Settles O4: the fields a row does not ignore can be read back from the instruction it builds. -/
theorem exactlyTheIgnoredNibbleIsNotRead : Obligations.ExactlyTheIgnoredNibbleIsNotRead := by
  refine ⟨fun o b1 b1' rest => decode_congr_ignored_nibble rest, fun bs bs' i hdec hdec' => ?_⟩
  obtain ⟨o, b1, k, rfl, rfl⟩ := exists_layout_of_decode hdec
  obtain ⟨o', b1', k', rfl, hbuild⟩ := exists_layout_of_decode hdec'
  obtain rfl : o = o' := by simpa using congrArg Instr.opcode hbuild
  obtain ⟨hbytes, hnibble⟩ := Opcode.layout_eq_of_build_eq hbuild
  simpa using ⟨hbytes, hnibble⟩

end Sys2Proof
end

