-- ==== Sys2Proof/Proofs/FetchFaults.lean ====
section
/-! PROOF. The fetch at `pc` is the decoder over the instruction space: which opcodes are illegal
(R88), and what a cycle does when its fetch faults (R85, R177). -/

namespace Sys2Proof.Machine

/-! ## Illegal opcodes -/

/-- The opcode values with no row are those that R88 lists. -/
theorem ofByte_eq_none_iff {b : Byte} : Opcode.ofByte b = none ↔ illegalOpcode b = true := by
  revert b; decide

section
variable {s : State}

/-! ## The bytes at `pc` -/

@[simp] theorem State.byteAtPc_zero : s.byteAtPc 0 = s.ifetch s.pc := by simp [State.byteAtPc]

theorem State.byteAtPc_one : s.byteAtPc 1 = s.ifetch (s.pc + 1) := rfl

theorem State.byteAtPc_two : s.byteAtPc 2 = s.ifetch (s.pc + 2) := rfl

/-- A fetch from the instruction space raises no fault but that of its own address (R52). -/
theorem State.ifetch_eq_error_iff {a : Byte} {f : CycleFault} :
    s.ifetch a = .error f ↔ imemSize s.cfg ≤ a.toNat ∧ f = .imem a := by
  by_cases h : a.toNat < imemSize s.cfg
  · simp [State.ifetch_ok h, Nat.not_le.2 h]
  · simp [State.ifetch_error h, Nat.not_lt.1 h, eq_comm]

/-- The fetch answers as the decoder does over the bytes at `pc` (R85). -/
theorem State.fetch_eq_iff {r : Except CycleFault Instr} :
    s.fetch = r ↔ DecodeAnswer s.byteAtPc .illegal r :=
  decodeFrom_eq_iff

/-- An illegal opcode is the only cause of `IllegalInstruction` (R172). -/
theorem State.fetch_eq_illegal_iff {op : Byte} :
    s.fetch = .error (.illegal op) ↔ s.ifetch s.pc = .ok op ∧ Opcode.ofByte op = none := by
  rw [State.fetch_eq_iff]
  constructor
  · intro h
    cases h with
    | noRow h0 hb => exact ⟨by simpa using h0, hb⟩
    | opcodeFails h0 => simp [State.ifetch_eq_error_iff] at h0
    | secondFails _ _ h1 => simp [State.byteAtPc_one, State.ifetch_eq_error_iff] at h1
    | thirdFails _ _ _ h2 => simp [State.byteAtPc_two, State.ifetch_eq_error_iff] at h2
  · rintro ⟨h0, hb⟩
    exact .noRow (by simpa using h0) hb

/-! ## A fetch that faults -/

theorem State.fetchSkip_of_error {f : CycleFault} (h : s.ifetch s.pc = .error f) :
    s.fetchSkip = 1 := by
  simp [State.fetchSkip, h]

theorem State.fetchSkip_of_illegal {op : Byte} (h : s.ifetch s.pc = .ok op)
    (hop : Opcode.ofByte op = none) : s.fetchSkip = 1 := by
  simp [State.fetchSkip, h, hop]

theorem State.fetchSkip_of_row {op : Byte} {o : Opcode} (h : s.ifetch s.pc = .ok op)
    (hop : Opcode.ofByte op = some o) : s.fetchSkip = BitVec.ofNat 8 o.len := by
  simp [State.fetchSkip, h, hop]

/-- A cycle whose fetch faults takes that fault (R86, R176). -/
theorem step_of_fetch_error {f : CycleFault} (hlegal : s.cfg.legal = true)
    (hfetch : s.fetch = .error f) : step s = .next (s.takeFault f s.fetchSkip) := by
  simp [step, hlegal, hfetch]

/-- The entry of a fault of the fetch, as R176 to R178 describe it. -/
theorem exists_step_faultEntry {f : CycleFault} {n : Byte} (hlegal : s.cfg.legal = true)
    (hfetch : s.fetch = .error f) (hskip : s.fetchSkip = n) :
    ∃ t, step s = .next t ∧ FaultEntry s f.kind f.space f.value n t :=
  ⟨_, step_of_fetch_error hlegal hfetch, hskip ▸ s.takeFault_entry f _⟩

/-- A cycle on an opcode with no row takes `IllegalInstruction` and passes one byte. -/
theorem exists_step_illegal {op : Byte} (hlegal : s.cfg.legal = true) (h0 : s.ifetch s.pc = .ok op)
    (hop : Opcode.ofByte op = none) :
    ∃ t, step s = .next t ∧ FaultEntry s .illegalInstruction .none op 1 t :=
  exists_step_faultEntry hlegal (State.fetch_eq_illegal_iff.2 ⟨h0, hop⟩)
    (State.fetchSkip_of_illegal h0 hop)

/-- If every byte of the row is in the instruction space, the fetch gives an instruction of it. -/
theorem State.exists_fetch_of_row {op : Byte} {o : Opcode} (h0 : s.ifetch s.pc = .ok op)
    (hop : Opcode.ofByte op = some o)
    (hin : ∀ n, n < o.len → (s.pc + BitVec.ofNat 8 n).toNat < imemSize s.cfg) :
    ∃ i, s.fetch = .ok i ∧ i.opcode = o := by
  obtain rfl := Opcode.byte_of_ofByte hop
  have hok {n : Nat} (hn : n < o.len) {f : CycleFault} : s.byteAtPc n ≠ .error f := by
    simp [State.byteAtPc, State.ifetch_ok (hin n hn)]
  have hop_eq {b : Byte} (h : s.byteAtPc 0 = .ok b) : b = o.byte :=
    Except.ok.inj (h.symm.trans (s.byteAtPc_zero.trans h0))
  have hrow {o' : Opcode} (h : s.byteAtPc 0 = .ok o'.byte) : o' = o := by
    simpa using congrArg Opcode.ofByte (hop_eq h)
  have hanswer : DecodeAnswer s.byteAtPc .illegal s.fetch := State.fetch_eq_iff.1 rfl
  generalize s.fetch = r at hanswer ⊢
  cases hanswer with
  | opcodeFails h => exact absurd h (hok o.len_pos)
  | noRow h hb => simp [hop_eq h] at hb
  | secondFails h hlen h1 => exact absurd h1 (hok (hrow h ▸ hlen))
  | thirdFails h hlen _ h2 => exact absurd h2 (hok (by rw [← hrow h, hlen]; decide))
  | @row o' b1 k h =>
    exact ⟨_, rfl, (o'.opcode_build _ _ _).trans (hrow (h 0 _ (o'.layout_getElem?_zero b1 k)))⟩

end

/-! ## The obligations -/

/-- Settles O5: the fetch reports an opcode with no row, and the rows leave out what R88 lists. -/
theorem exactlyTheListedOpcodesAreIllegal : Obligations.ExactlyTheListedOpcodesAreIllegal := by
  intro s op hlegal
  simp only [← ofByte_eq_none_iff]
  exact ⟨State.fetch_eq_illegal_iff, exists_step_illegal hlegal⟩

/-- Settles O7: each failing fetch is one answer of the decoder, and `fetchSkip` gives its length. -/
theorem fetchFaultsInOrder : Obligations.FetchFaultsInOrder := by
  intro s hlegal
  refine ⟨fun hout => ?_, fun op => exists_step_illegal hlegal, fun op o h0 hop hlen hout => ?_,
    fun op o h0 hop hlen hin hout => ?_, fun op o => State.exists_fetch_of_row⟩
  · have h0 : s.ifetch s.pc = .error (.imem s.pc) := State.ifetch_eq_error_iff.2 ⟨hout, rfl⟩
    exact exists_step_faultEntry hlegal
      (State.fetch_eq_iff.2 (.opcodeFails (s.byteAtPc_zero.trans h0))) (State.fetchSkip_of_error h0)
  · obtain rfl := Opcode.byte_of_ofByte hop
    have hbyte : s.byteAtPc 0 = .ok o.byte := s.byteAtPc_zero.trans h0
    have h1 : s.byteAtPc 1 = .error (.imem (s.pc + 1)) := State.ifetch_eq_error_iff.2 ⟨hout, rfl⟩
    exact exists_step_faultEntry hlegal (State.fetch_eq_iff.2 (.secondFails hbyte hlen h1))
      (State.fetchSkip_of_row h0 hop)
  · obtain rfl := Opcode.byte_of_ofByte hop
    have hbyte : s.byteAtPc 0 = .ok o.byte := s.byteAtPc_zero.trans h0
    have h2 : s.byteAtPc 2 = .error (.imem (s.pc + 2)) := State.ifetch_eq_error_iff.2 ⟨hout, rfl⟩
    have hskip : s.fetchSkip = 3 := by rw [State.fetchSkip_of_row h0 hop, hlen]; rfl
    exact exists_step_faultEntry hlegal
      (State.fetch_eq_iff.2 (.thirdFails hbyte hlen (State.ifetch_ok hin) h2)) hskip

end Sys2Proof.Machine
end

