-- ==== Sys2Proof/Proofs/ExecutionFaults.lean ====
section
/-! PROOF. Execution as a chain of range checks (R91, R175 (5) to (8)): each operand access is one
check, an instruction's meaning makes its checks in the order of `execFault`, and what follows the last
of them leaves FAULT, RUN, ROM and the configuration alone. -/

namespace Sys2Proof.Machine

/-! ## The checks -/

/-- The check of a register index (R21). -/
def regFault (c : Config) (i : RegIdx) : Option CycleFault :=
  if i.val < c.nregs then none else some (.reg i)

/-- The check of a register bit index (R130). -/
def bitFault (b : BitIdx) : Option CycleFault := if b.val < 8 then none else some (.bit b)

/-- The check of a data address (R53). -/
def ramFault (c : Config) (a : Byte) : Option CycleFault :=
  if a.toNat < c.ramSize then none else some (.ram a)

/-- The checks of an instruction, first to last. -/
theorem execFault_eq (s : State) (i : Instr) :
    execFault s i = (i.hiReg.bind (regFault s.cfg) <|> i.loReg.bind (regFault s.cfg) <|>
      i.bitOperand.bind bitFault <|> (storeAddr s i <|> loadAddr s i).bind (ramFault s.cfg) <|>
      none) := by
  simp only [execFault, rangeFault, dataFault, Option.orElse_eq_orElse, Option.orElse_eq_or,
    Option.or_assoc, Option.or_none]
  rfl

/-- The end `r` of a cycle that began in `s`: the fault `f` if there is one, and else a state in which
FAULT, RUN, ROM and the configuration are as they were. -/
def EndsWith (s : State) (f : Option CycleFault) (r : Except CycleFault State) : Prop :=
  (∀ e, f = some e → r = .error e) ∧ (f = none → ∃ t, r = .ok t ∧ SameControl s t)

section
variable {s : State} {f : Option CycleFault}

/-- With no check left, the cycle ends in the state computed. -/
theorem EndsWith.ok {t : State} (h : SameControl s t := by exact ⟨rfl, rfl, rfl, fun _ => rfl⟩) :
    EndsWith s none (.ok t) :=
  ⟨nofun, fun _ => ⟨t, rfl, h⟩⟩

/-- A check made first is reported first. -/
theorem EndsWith.check {α : Type} {p : Prop} [Decidable p] {a : α} {e : CycleFault}
    {k : α → Except CycleFault State} (h : EndsWith s f (k a)) :
    EndsWith s ((if p then none else some e) <|> f) ((if p then .ok a else .error e) >>= k) := by
  by_cases hp : p
  · simpa [hp] using h
  · simp [hp, EndsWith]

/-! Each operand access is a check and then a value. -/

theorem EndsWith.readReg {i : RegIdx} {k : Byte → Except CycleFault State}
    (h : EndsWith s f (k (s.reg i))) :
    EndsWith s (regFault s.cfg i <|> f) (s.readReg i >>= k) := h.check

theorem EndsWith.checkReg {i : RegIdx} {k : Unit → Except CycleFault State}
    (h : EndsWith s f (k ())) : EndsWith s (regFault s.cfg i <|> f) (s.checkReg i >>= k) := h.check

theorem EndsWith.checkBit {b : BitIdx} {k : Unit → Except CycleFault State}
    (h : EndsWith s f (k ())) : EndsWith s (bitFault b <|> f) (checkBit b >>= k) := h.check

theorem EndsWith.memRead {a : Byte} {k : Byte → Except CycleFault State}
    (h : EndsWith s f (k (Memory.read s.ram a.toNat))) :
    EndsWith s (ramFault s.cfg a <|> f) (s.memRead a >>= k) := h.check

theorem EndsWith.memWrite {a v : Byte} {k : State → Except CycleFault State}
    (h : EndsWith s f (k (s.setRam (Memory.write s.ram a.toNat v)))) :
    EndsWith s (ramFault s.cfg a <|> f) (s.memWrite a v >>= k) := h.check

theorem EndsWith.pushByte {v : Byte} {k : State → Except CycleFault State}
    (h : EndsWith s f (k ((s.setRam (Memory.write s.ram (s.sp - 1).toNat v)).setSp (s.sp - 1)))) :
    EndsWith s (ramFault s.cfg (s.sp - 1) <|> f) (s.pushByte v >>= k) := by
  rw [State.pushByte, bind_assoc]
  exact .memWrite h

theorem EndsWith.popByte {k : Byte × State → Except CycleFault State}
    (h : EndsWith s f (k (Memory.read s.ram s.sp.toNat, s.setSp (s.sp + 1)))) :
    EndsWith s (ramFault s.cfg s.sp <|> f) (s.popByte >>= k) := by
  rw [State.popByte, bind_assoc]
  exact .memRead h

/-- The two-register instructions check the high register, then the low one (R110). -/
theorem EndsWith.aluRegReg {d r : RegIdx} {g : Byte → Byte → FlagWord → Byte × FlagWord} :
    EndsWith s (regFault s.cfg d <|> regFault s.cfg r <|> none) (aluRegReg d r g s) :=
  .readReg (.readReg .ok)

end

/-! ## Every instruction -/

/-- A branch moves `pc` only, taken or not. -/
theorem branchIf_sameControl (taken : Bool) (k : Byte) (s : State) :
    SameControl s (branchIf taken k s) := by
  cases taken <;> exact ⟨rfl, rfl, rfl, fun _ => rfl⟩

/-- Every instruction ends its cycle by its first failing check, or changes no control state. -/
theorem exists_exec_eq_retire (i : Instr) (s : State) :
    ∃ r, exec i s = retire s (BitVec.ofNat 8 i.opcode.len) r ∧ EndsWith s (execFault s i) r := by
  rw [execFault_eq]
  cases i with
  | nop => exact ⟨.ok _, rfl, .ok⟩
  | add d r => exact ⟨_, rfl, .aluRegReg⟩
  | adc d r => exact ⟨_, rfl, .aluRegReg⟩
  | sub d r => exact ⟨_, rfl, .aluRegReg⟩
  | sbc d r => exact ⟨_, rfl, .aluRegReg⟩
  | and d r => exact ⟨_, rfl, .aluRegReg⟩
  | asr d => exact ⟨_, rfl, .readReg .ok⟩
  | bset f => exact ⟨.ok _, rfl, .ok⟩
  | bclr f => exact ⟨.ok _, rfl, .ok⟩
  | bst d b => exact ⟨_, rfl, .readReg (.checkBit .ok)⟩
  | bld d b => exact ⟨_, rfl, .readReg (.checkBit .ok)⟩
  | brbs f k => exact ⟨.ok _, rfl, .ok (branchIf_sameControl _ k s)⟩
  | brbc f k => exact ⟨.ok _, rfl, .ok (branchIf_sameControl _ k s)⟩
  | jmp k => exact ⟨.ok _, rfl, .ok⟩
  | call k => exact ⟨_, rfl, .pushByte .ok⟩
  | ret => exact ⟨_, rfl, .popByte .ok⟩
  | ldi d k => exact ⟨_, rfl, .checkReg .ok⟩
  | mov d r => exact ⟨_, rfl, .checkReg (.readReg .ok)⟩
  | ld d r => exact ⟨_, rfl, .checkReg (.readReg (.memRead .ok))⟩
  | st d r => exact ⟨_, rfl, .readReg (.readReg (.memWrite .ok))⟩
  | push r => exact ⟨_, rfl, .readReg (.pushByte .ok)⟩
  | pop d => exact ⟨_, rfl, .checkReg (.popByte .ok)⟩

/-! ## The obligation -/

/-- An operand is in range exactly if its check raises nothing. -/
theorem inRange_iff {bound : Nat} {x : Option (Fin 16)} {e : Fin 16 → CycleFault} :
    inRange bound x = true ↔ (x.bind fun i => if i.val < bound then none else some (e i)) = none := by
  cases x <;> simp [inRange]

/-- An instruction is well formed exactly if it passes its range checks (R91). -/
theorem wellFormed_iff (c : Config) (i : Instr) : i.wellFormed c = true ↔ rangeFault c i = none := by
  simp only [Instr.wellFormed, rangeFault, Bool.and_eq_true, Option.orElse_eq_none, and_assoc]
  exact and_congr inRange_iff (and_congr inRange_iff inRange_iff)

/-- Settles O11: the cycle ends with the first failing check, and the range checks alone decide
well-formedness. -/
theorem executionFaultsExactlyOnOutOfRangeOperands :
    Obligations.ExecutionFaultsExactlyOnOutOfRangeOperands := by
  intro i s
  obtain ⟨r, hexec, hfault, hok⟩ := exists_exec_eq_retire i s
  refine ⟨fun f hf => ?_, fun hf => ?_, wellFormed_iff s.cfg i⟩
  · rw [hexec, hfault f hf, retire_error]
    exact ⟨_, rfl, s.takeFault_entry f _⟩
  · obtain ⟨t, rfl, hsame⟩ := hok hf
    exact ⟨t, hexec, hsame⟩

end Sys2Proof.Machine
end

/-! PROOF. Arithmetic, logic and shift (40_arith_logic.md): the range faults of an instruction by the
registers it names (R91), the one state that every instruction of this family ends in (R110), and the
exact integer formulas of R117 as natural numbers. -/

namespace Sys2Proof.Machine

/-! ## Encoding -/

/-- A row of format P decodes from its opcode and the nibble pair of its two fields. -/
theorem decode_nibblePair {o : Opcode} (hf : o.format = .p) (hi lo : Fin 16) :
    decode [o.byte, nibblePair hi lo] = .ok (o.build hi lo 0, []) := by
  simpa using decode_p hf (nibblePair hi lo) []

/-! ## The range faults of registers -/

section
variable {s : State} {i : Instr} {d r : RegIdx}

/-- The register in the high nibble is checked before anything else. -/
theorem execFault_of_hiReg (hhi : i.hiReg = some d) (hd : ¬ RegExists s d) :
    execFault s i = some (.reg d) := by
  simp [execFault_eq, hhi, regFault, hd]

/-- The register in the low nibble is checked right after the one in the high nibble. -/
theorem execFault_of_loReg (hhi : i.hiReg = some d) (hlo : i.loReg = some r) (hd : RegExists s d)
    (hr : ¬ RegExists s r) : execFault s i = some (.reg r) := by
  simp [execFault_eq, hhi, hlo, regFault, hd, hr]

/-- An instruction takes the bounds fault of the register in its high nibble (R91). -/
theorem oneRegFaults_of_hiReg (hhi : i.hiReg = some d) :
    OneRegFaults i d (BitVec.ofNat 8 i.opcode.len) s :=
  fun hd => (executionFaultsExactlyOnOutOfRangeOperands i s).1 _ (execFault_of_hiReg hhi hd)

/-- An instruction with two registers takes their bounds faults, the high nibble's first (R91). -/
theorem twoRegFaults_of_hiReg_loReg (hhi : i.hiReg = some d) (hlo : i.loReg = some r) :
    TwoRegFaults i d r (BitVec.ofNat 8 i.opcode.len) s :=
  ⟨oneRegFaults_of_hiReg hhi, fun hd hr =>
    (executionFaultsExactlyOnOutOfRangeOperands i s).1 _ (execFault_of_loReg hhi hlo hd hr)⟩

end

/-! ## The state a faultless cycle ends in -/

/-- `x[d] <- v`, `F <- w` and `pc <- wrap8(a0 + 2)`: all that this family writes (R110). -/
def State.writeBack (s : State) (d : RegIdx) (v : Byte) (w : FlagWord) : State :=
  ((s.setReg d v).setFlags w).advance 2

section
variable {s : State} {d r : RegIdx} {v : Byte} {w : FlagWord}

@[simp] theorem State.writeBack_reg : (s.writeBack d v w).reg d = v := by simp [State.writeBack]

@[simp] theorem State.writeBack_flag (f : Flag) :
    (s.writeBack d v w).flag f = getFlag w f.index := rfl

@[simp] theorem State.writeBack_pc : (s.writeBack d v w).pc = s.pc + 2 := rfl

/-- Outside `x[d]`, `pc` and the listed flags nothing is written. -/
theorem State.writeBack_frame {l : List FlagIdx} (hw : ∀ j, j ∉ l → getFlag w j = getFlag s.flags j) :
    FrameExcept d l s (s.writeBack d v w) :=
  ⟨s.setReg_frame d v, hw, rfl, fun _ => rfl, rfl, rfl, rfl, fun _ => rfl⟩

/-- With both registers in range a two-register instruction writes back what its function gives. -/
theorem aluRegReg_eq_writeBack {f : Byte → Byte → FlagWord → Byte × FlagWord} (hd : RegExists s d)
    (hr : RegExists s r) :
    aluRegReg d r f s = .ok (s.writeBack d (f (s.reg d) (s.reg r) s.flags).1
      (f (s.reg d) (s.reg r) s.flags).2) := by
  rw [aluRegReg, State.readReg_ok hd, ok_bind, State.readReg_ok hr, ok_bind, State.writeBack]

/-! ## Addition and subtraction -/

/-- ADD, ADC, SUB and SBC alike: when the operation `op` takes Zero and Sign from its result, that result
and its five flags are what the cycle leaves behind. -/
theorem exists_retire_aluRegReg {op : Byte → Byte → AluResult} (hd : RegExists s d)
    (hr : RegExists s r) (hz : ∀ a b, (op a b).z = isZero (op a b).value)
    (hs : ∀ a b, (op a b).s = signBit (op a b).value) :
    ∃ t, retire s 2 (aluRegReg d r (fun a b w => ((op a b).value, setArithFlags w (op a b))) s) =
        .next t ∧
      t.reg d = (op (s.reg d) (s.reg r)).value ∧
      ArithFlagsAre t (t.reg d) (op (s.reg d) (s.reg r)).c (op (s.reg d) (s.reg r)).v
        (op (s.reg d) (s.reg r)).h ∧
      t.pc = s.pc + 2 ∧ FrameExcept d [0, 1, 2, 5, 6] s t := by
  rw [aluRegReg_eq_writeBack hd hr]
  refine ⟨_, rfl, State.writeBack_reg, ?_, State.writeBack_pc,
    State.writeBack_frame (setArithFlags_frame _ _)⟩
  simp [ArithFlagsAre, getFlag_setArithFlags, Flag.index, hz, hs, isZero, signBit]

end

/-- A carry as a number. -/
theorem carryIn_eq_toNat (cin : Bool) : carryIn cin = cin.toNat := by cases cin <;> rfl

section
variable (a b : Byte) (cin : Bool)

/-! The sum, its carry, its overflow and its half carry (R117). -/

theorem addResult_value_toNat :
    (addResult a b cin).value.toNat = (a.toNat + b.toNat + cin.toNat) % 256 := by
  simp only [addResult, exactSum, wrap8, carryIn_eq_toNat, BitVec.toNat_ofInt]
  omega

theorem addResult_c : (addResult a b cin).c = decide (a.toNat + b.toNat + cin.toNat > 255) := by
  simp only [addResult, exactSum, carryIn_eq_toNat, decide_eq_decide]
  omega

theorem addResult_v :
    (addResult a b cin).v =
      decide (a.toInt + b.toInt + cin.toNat < -128 ∨ 127 < a.toInt + b.toInt + cin.toNat) := by
  rw [addResult, outsideSigned, carryIn_eq_toNat]

theorem addResult_h :
    (addResult a b cin).h = decide (a.toNat % 16 + b.toNat % 16 + cin.toNat > 15) := by
  simp only [addResult, loNibble, carryIn_eq_toNat, decide_eq_decide]
  omega

/-! The difference, its borrow, its overflow and its half borrow (R117). -/

theorem subResult_value_toNat :
    ((subResult a b cin).value.toNat : Int) = ((a.toNat : Int) - b.toNat - cin.toNat) % 256 := by
  simp only [subResult, exactDiff, wrap8, carryIn_eq_toNat, BitVec.toNat_ofInt]
  omega

theorem subResult_c : (subResult a b cin).c = decide (a.toNat < b.toNat + cin.toNat) := by
  simp only [subResult, exactDiff, carryIn_eq_toNat, decide_eq_decide]
  omega

theorem subResult_v :
    (subResult a b cin).v =
      decide (a.toInt - b.toInt - cin.toNat < -128 ∨ 127 < a.toInt - b.toInt - cin.toNat) := by
  rw [subResult, outsideSigned, carryIn_eq_toNat]

theorem subResult_h :
    (subResult a b cin).h = decide (a.toNat % 16 < b.toNat % 16 + cin.toNat) := by
  simp only [subResult, loNibble, carryIn_eq_toNat, decide_eq_decide]
  omega

end

section
variable {s : State} {d r : RegIdx} {i : Instr} {cin : Bool}

/-- The effect of an addition with carry in `cin`, in exact integers (R111, R112). -/
theorem exists_exec_addition (hexec : exec i s = retire s 2 (aluRegReg d r (addWrites cin) s))
    (hd : RegExists s d) (hr : RegExists s r) :
    ∃ t, exec i s = .next t ∧
      (t.reg d).toNat = ((s.reg d).toNat + (s.reg r).toNat + cin.toNat) % 256 ∧
      ArithFlagsAre t (t.reg d)
        (decide ((s.reg d).toNat + (s.reg r).toNat + cin.toNat > 255))
        (decide ((s.reg d).toInt + (s.reg r).toInt + cin.toNat < -128 ∨
          127 < (s.reg d).toInt + (s.reg r).toInt + cin.toNat))
        (decide ((s.reg d).toNat % 16 + (s.reg r).toNat % 16 + cin.toNat > 15)) ∧
      t.pc = s.pc + 2 ∧ FrameExcept d [0, 1, 2, 5, 6] s t := by
  obtain ⟨t, hretire, hreg, hflags, hpc, hframe⟩ :=
    exists_retire_aluRegReg (op := fun a b => addResult a b cin) hd hr (fun _ _ => rfl)
      (fun _ _ => rfl)
  refine ⟨t, hexec.trans hretire, ?_, ?_, hpc, hframe⟩
  · rw [hreg, addResult_value_toNat]
  · simpa only [addResult_c, addResult_v, addResult_h] using hflags

/-- The effect of a subtraction with borrow in `cin`, in exact integers (R113, R114). -/
theorem exists_exec_subtraction (hexec : exec i s = retire s 2 (aluRegReg d r (subWrites cin) s))
    (hd : RegExists s d) (hr : RegExists s r) :
    ∃ t, exec i s = .next t ∧
      ((t.reg d).toNat : Int) = (((s.reg d).toNat : Int) - (s.reg r).toNat - cin.toNat) % 256 ∧
      ArithFlagsAre t (t.reg d)
        (decide ((s.reg d).toNat < (s.reg r).toNat + cin.toNat))
        (decide ((s.reg d).toInt - (s.reg r).toInt - cin.toNat < -128 ∨
          127 < (s.reg d).toInt - (s.reg r).toInt - cin.toNat))
        (decide ((s.reg d).toNat % 16 < (s.reg r).toNat % 16 + cin.toNat)) ∧
      t.pc = s.pc + 2 ∧ FrameExcept d [0, 1, 2, 5, 6] s t := by
  obtain ⟨t, hretire, hreg, hflags, hpc, hframe⟩ :=
    exists_retire_aluRegReg (op := fun a b => subResult a b cin) hd hr (fun _ _ => rfl)
      (fun _ _ => rfl)
  refine ⟨t, hexec.trans hretire, ?_, ?_, hpc, hframe⟩
  · rw [hreg, subResult_value_toNat]
  · simpa only [subResult_c, subResult_v, subResult_h] using hflags

end

/-! ## The shift -/

section
variable (a : Byte)

/-- Bit 7 is kept (R116). -/
theorem shiftRightArith_getLsbD_seven : (shiftRightArith a).getLsbD 7 = a.getLsbD 7 := by
  simp [shiftRightArith]

/-- Every other bit comes from the place above it (R116). -/
theorem shiftRightArith_getLsbD_of_lt {j : Nat} (hj : j < 7) :
    (shiftRightArith a).getLsbD j = a.getLsbD (j + 1) := by
  have hmask : (0x80#8).getLsbD j = false := by
    rw [show 0x80#8 = BitVec.twoPow 8 7 from rfl, BitVec.getLsbD_twoPow]
    simp [hj.ne']
  rw [shiftRightArith, BitVec.getLsbD_or, BitVec.getLsbD_and, hmask, Bool.and_false, Bool.false_or,
    BitVec.getLsbD_ushiftRight, Nat.add_comm]

end

/-- With its register in range ASR writes back the shifted byte and its three flags. -/
theorem exec_asr_eq_writeBack {s : State} {d : RegIdx} (hd : RegExists s d) :
    exec (.asr d) s =
      .next (s.writeBack d (shiftRightArith (s.reg d)) (setShiftFlags s.flags (s.reg d))) := by
  rw [exec, execAsr, State.readReg_ok hd, ok_bind, retire_ok, State.writeBack]

/-! ## The obligations -/

/-- Settles O26: the addition with carry in 0. -/
theorem addSumsAndSetsFiveFlags : Obligations.AddSumsAndSetsFiveFlags := by
  intro d r s
  refine ⟨decode_nibblePair (o := .add) rfl d r, fun hd hr => ?_, twoRegFaults_of_hiReg_loReg rfl rfl⟩
  simpa using exists_exec_addition (i := .add d r) (cin := false) rfl hd hr

/-- Settles O27: the addition with the old `F.C` as carry in. -/
theorem adcSumsWithCarryAndSetsFiveFlags : Obligations.AdcSumsWithCarryAndSetsFiveFlags :=
  fun d r _ => ⟨decode_nibblePair (o := .adc) rfl d r, exists_exec_addition rfl,
    twoRegFaults_of_hiReg_loReg rfl rfl⟩

/-- Settles O28: the subtraction with borrow in 0. -/
theorem subSubtractsAndSetsFiveFlags : Obligations.SubSubtractsAndSetsFiveFlags := by
  intro d r s
  refine ⟨decode_nibblePair (o := .sub) rfl d r, fun hd hr => ?_, twoRegFaults_of_hiReg_loReg rfl rfl⟩
  simpa using exists_exec_subtraction (i := .sub d r) (cin := false) rfl hd hr

/-- Settles O29: the subtraction with the old `F.C` as borrow in. -/
theorem sbcSubtractsWithBorrowAndSetsFiveFlags :
    Obligations.SbcSubtractsWithBorrowAndSetsFiveFlags :=
  fun d r _ => ⟨decode_nibblePair (o := .sbc) rfl d r, exists_exec_subtraction rfl,
    twoRegFaults_of_hiReg_loReg rfl rfl⟩

/-- Settles O30: the conjunction is written back with Z and S. -/
theorem andMasksBitByBit : Obligations.AndMasksBitByBit := by
  intro d r s
  refine ⟨decode_nibblePair (o := .and) rfl d r, fun hd hr => ?_, twoRegFaults_of_hiReg_loReg rfl rfl⟩
  refine ⟨_, congrArg (retire s 2) (aluRegReg_eq_writeBack hd hr), fun j _ => ?_, ?_, ?_,
    State.writeBack_pc, State.writeBack_frame (setLogicFlags_frame _ _)⟩
  · simp
  · simp [getFlag_setLogicFlags, Flag.index, isZero]
  · simp [getFlag_setLogicFlags, Flag.index, signBit]

/-- Settles O31: the shifted byte is written back with Z and S, and C from the old bit 0. -/
theorem asrShiftsRightKeepingTheSign : Obligations.AsrShiftsRightKeepingTheSign := by
  intro d s
  refine ⟨decode_nibblePair (o := .asr) rfl d, fun hd => ?_, oneRegFaults_of_hiReg rfl⟩
  refine ⟨_, exec_asr_eq_writeBack hd, ?_, fun j hj => ?_, ?_, ?_, ?_, State.writeBack_pc,
    State.writeBack_frame (setShiftFlags_frame _ _)⟩
  · rw [State.writeBack_reg, shiftRightArith_getLsbD_seven]
  · rw [State.writeBack_reg, shiftRightArith_getLsbD_of_lt _ hj]
  · simp [getFlag_setShiftFlags, Flag.index]
  · simp [getFlag_setShiftFlags, Flag.index, isZero]
  · simp [getFlag_setShiftFlags, Flag.index, signBit]

end Sys2Proof.Machine

/-! PROOF. Bit instructions (41_bit.md): the range faults of a register and a bit index (R91), the one
state that BSET, BCLR and BST end in, and a register whose one bit is written (R134). -/

namespace Sys2Proof.Machine

/-! ## The range faults of a register and a bit index -/

section
variable {s : State} {i : Instr} {d : RegIdx} {b : BitIdx}

/-- The bit index is checked right after the register in the high nibble. -/
theorem execFault_of_bitOperand (hhi : i.hiReg = some d) (hlo : i.loReg = none)
    (hbit : i.bitOperand = some b) (hd : RegExists s d) (hb : ¬ b.val < 8) :
    execFault s i = some (.bit b) := by
  simp [execFault_eq, hhi, hlo, hbit, regFault, bitFault, hd, hb]

/-- An instruction with a register and a bit index takes their bounds faults, the register's first
(R91). -/
theorem regBitFaults_of_hiReg_bitOperand (hhi : i.hiReg = some d) (hlo : i.loReg = none)
    (hbit : i.bitOperand = some b) : RegBitFaults i d b (BitVec.ofNat 8 i.opcode.len) s :=
  ⟨oneRegFaults_of_hiReg hhi, fun hd hb =>
    (executionFaultsExactlyOnOutOfRangeOperands i s).1 _
      (execFault_of_bitOperand hhi hlo hbit hd (by omega))⟩

end

/-! ## Writing one flag -/

/-- `F[i] <- x` and `pc <- wrap8(a0 + 2)`: all that BSET, BCLR and BST write. -/
def State.writeFlag (s : State) (i : FlagIdx) (x : Bool) : State :=
  (s.setFlags (setFlag s.flags i x)).advance 2

/-- The named flag is written, the other fifteen are kept (R10), `pc` moves on by 2, and nothing else is
written. -/
theorem State.writeFlag_spec (s : State) (i : FlagIdx) (x : Bool) :
    getFlag (s.writeFlag i x).flags i = x ∧ SameFlagsExcept [i] s (s.writeFlag i x) ∧
      (s.writeFlag i x).pc = s.pc + 2 ∧ SameRegs s (s.writeFlag i x) ∧
      (s.writeFlag i x).sp = s.sp ∧ SameRam s (s.writeFlag i x) ∧
      SameControl s (s.writeFlag i x) := by
  refine ⟨?_, fun j hj => ?_, rfl, fun _ => rfl, rfl, fun _ => rfl, rfl, rfl, rfl, fun _ => rfl⟩
  · simp [State.writeFlag]
  · have hne : j ≠ i := List.ne_of_not_mem_cons hj
    simp [State.writeFlag, hne]

/-! ## Register bits -/

/-- Writing bit `b` of a byte changes that bit alone (R134), bits named by their place. -/
theorem getLsbD_withBit {v : Byte} {b : BitIdx} {x : Bool} (hb : b.val < 8) {j : Nat} (hj : j < 8) :
    (withBit v b x).getLsbD j = if j = b.val then x else v.getLsbD j := by
  simpa [bitOf, Fin.ext_iff] using bitOf_withBit v b ⟨j, by omega⟩ x hb

section
variable {s : State} {d : RegIdx} {b : BitIdx}

/-- With both operands in range BST writes the Transfer flag. -/
theorem exec_bst_eq_writeFlag (hd : RegExists s d) (hb : b.val < 8) :
    exec (.bst d b) s = .next (s.writeFlag Flag.transfer.index (bitOf (s.reg d) b)) := by
  rw [exec, execBst, State.readReg_ok hd, ok_bind, checkBit_ok hb, ok_bind, retire_ok,
    State.writeFlag]

/-- Writing the old flags back leaves a write of the register and of `pc` alone. -/
theorem State.writeBack_flags_self {v : Byte} :
    s.writeBack d v s.flags = (s.setReg d v).advance 2 := rfl

/-- With both operands in range BLD writes the register back and leaves the flags as they are. -/
theorem exec_bld_eq_writeBack (hd : RegExists s d) (hb : b.val < 8) :
    exec (.bld d b) s =
      .next (s.writeBack d (withBit (s.reg d) b (s.flag .transfer)) s.flags) := by
  rw [exec, execBld, State.readReg_ok hd, ok_bind, checkBit_ok hb, ok_bind, retire_ok,
    State.writeBack_flags_self]

end

/-! ## The obligations -/

/-- Settles O35: BST writes the Transfer flag with the register bit read. -/
theorem bstCopiesARegisterBitToTransfer : Obligations.BstCopiesARegisterBitToTransfer :=
  fun d b s => ⟨decode_nibblePair (o := .bst) rfl d b,
    fun hd hb => ⟨_, exec_bst_eq_writeFlag hd hb, s.writeFlag_spec _ _⟩,
    regBitFaults_of_hiReg_bitOperand rfl rfl rfl⟩

/-- Settles O36: the register is written back with bit `b` taken from the Transfer flag. -/
theorem bldCopiesTransferToARegisterBit : Obligations.BldCopiesTransferToARegisterBit := by
  intro d b s
  refine ⟨decode_nibblePair (o := .bld) rfl d b, fun hd hb => ?_,
    regBitFaults_of_hiReg_bitOperand rfl rfl rfl⟩
  refine ⟨_, exec_bld_eq_writeBack hd hb, ?_, fun j hj hne => ?_, State.writeBack_pc,
    State.writeBack_frame fun _ _ => rfl⟩
  · rw [State.writeBack_reg, getLsbD_withBit hb hb, if_pos rfl]
  · rw [State.writeBack_reg, getLsbD_withBit hb hj, if_neg hne]

/-- Settles O33: BSET writes its flag with 1, whatever the index. -/
theorem bsetSetsExactlyOneFlag : Obligations.BsetSetsExactlyOneFlag :=
  fun f s => ⟨decode_nibblePair (o := .bset) rfl f, _, rfl, s.writeFlag_spec f true⟩

/-- Settles O34: BCLR writes its flag with 0, whatever the index. -/
theorem bclrClearsExactlyOneFlag : Obligations.BclrClearsExactlyOneFlag :=
  fun f s => ⟨decode_nibblePair (o := .bclr) rfl f, _, rfl, s.writeFlag_spec f false⟩

end Sys2Proof.Machine

/-! PROOF. Control transfer and NOP (42_control.md): the encodings of formats N, K and PK, the bounds
fault of a data access (R53), the frame of an instruction that moves `pc` only (R146), and the states
that CALL and RET end in (R143, R144). -/

namespace Sys2Proof.Machine

/-! ## Encoding -/

/-- A row without operands decodes from its opcode alone. -/
theorem decode_n {o : Opcode} (hf : o.format = .n) : decode [o.byte] = .ok (o.build 0 0 0, []) := by
  simpa [Opcode.layout_n hf, Opcode.build_n hf (hiNibble 0#8)] using decode_layout_append o 0 0 []

/-- A row of format K decodes from its opcode and its constant. -/
theorem decode_k {o : Opcode} (hf : o.format = .k) (k : Byte) :
    decode [o.byte, k] = .ok (o.build 0 0 k, []) := by
  simpa [Opcode.layout_k hf, Opcode.build_k hf (hiNibble 0#8)] using decode_layout_append o 0 k []

/-- A row of format PK decodes from its opcode, the nibble pair of its two fields and its constant. -/
theorem decode_nibblePair_const {o : Opcode} (hf : o.format = .pk) (hi lo : Fin 16) (k : Byte) :
    decode [o.byte, nibblePair hi lo, k] = .ok (o.build hi lo k, []) := by
  simpa using decode_pk hf (nibblePair hi lo) k []

/-! ## The bounds fault of a data access -/

section
variable {s : State} {i : Instr} {a : Byte}

/-- The data address is checked once every operand is in range (R175 (8)). -/
theorem execFault_of_dataAddr (hrange : rangeFault s.cfg i = none)
    (haddr : (storeAddr s i <|> loadAddr s i) = some a) (ha : s.cfg.ramSize ≤ a.toNat) :
    execFault s i = some (.ram a) := by
  simp [execFault, dataFault, hrange, haddr, Nat.not_lt.2 ha]

/-- An instruction with its operands in range takes the bounds fault of its data address (R53). -/
theorem dataFaults_of_dataAddr (hrange : rangeFault s.cfg i = none)
    (haddr : (storeAddr s i <|> loadAddr s i) = some a) :
    DataFaults i a (BitVec.ofNat 8 i.opcode.len) s :=
  fun ha =>
    (executionFaultsExactlyOnOutOfRangeOperands i s).1 _ (execFault_of_dataAddr hrange haddr ha)

end

/-! ## Moving `pc` only -/

/-- A write of `pc` leaves everything else as it was. -/
theorem State.setPc_frame (s : State) (a : Byte) :
    SameRegs s (s.setPc a) ∧ SameFlags s (s.setPc a) ∧ (s.setPc a).sp = s.sp ∧
      SameRam s (s.setPc a) ∧ SameControl s (s.setPc a) :=
  ⟨fun _ => rfl, fun _ => rfl, rfl, fun _ => rfl, rfl, rfl, rfl, fun _ => rfl⟩

/-- A conditional branch writes `pc` only. -/
theorem branchIf_eq_setPc (taken : Bool) (k : Byte) (s : State) :
    branchIf taken k s = s.setPc (if taken then branchTarget s.pc k else s.pc + 3) := by
  cases taken <;> rfl

/-- The target as a number: the signed offset is added to the branch's own address, modulo 256
(R146). -/
theorem branchTarget_toNat (a0 k : Byte) :
    ((branchTarget a0 k).toNat : Int) = ((a0.toNat : Int) + k.toInt) % 256 := by
  rw [branchTarget, wrap8, BitVec.toNat_ofInt]
  omega

/-- A taken branch goes to its target, one not taken to the next instruction, and nothing but `pc`
changes. -/
theorem branchIf_spec (taken : Bool) (k : Byte) (s : State) :
    (taken = true →
      ((branchIf taken k s).pc.toNat : Int) = ((s.pc.toNat : Int) + k.toInt) % 256) ∧
    (taken = false → (branchIf taken k s).pc = s.pc + 3) ∧
    SameRegs s (branchIf taken k s) ∧ SameFlags s (branchIf taken k s) ∧
    (branchIf taken k s).sp = s.sp ∧ SameRam s (branchIf taken k s) ∧
    SameControl s (branchIf taken k s) := by
  rw [branchIf_eq_setPc]
  refine ⟨fun ht => ?_, fun ht => ?_, s.setPc_frame _⟩
  · rw [State.setPc_pc, if_pos ht, branchTarget_toNat]
  · rw [State.setPc_pc, ht, if_neg Bool.false_ne_true]

/-! ## The stack -/

section
variable {s : State}

/-- With its slot in RAM, CALL stores the address of the next instruction there and jumps. -/
theorem exec_call_of_lt {k : Byte} (h : (s.sp - 1).toNat < s.cfg.ramSize) :
    exec (.call k) s =
      .next (((s.setRam (Memory.write s.ram (s.sp - 1).toNat (s.pc + 2))).setSp (s.sp - 1)).setPc
        k) := by
  rw [exec, execCall, State.pushByte_ok h, ok_bind, retire_ok]

/-- With `sp` in RAM, RET takes `pc` from there and moves `sp` past it. -/
theorem exec_ret_of_lt (h : s.sp.toNat < s.cfg.ramSize) :
    exec .ret s = .next ((s.setSp (s.sp + 1)).setPc (Memory.read s.ram s.sp.toNat)) := by
  rw [exec, execRet, State.popByte_ok h, ok_bind, retire_ok]

end

/-! ## The obligations -/

/-- Settles O42: the pushed byte is the one byte of RAM that the state CALL ends in has written. -/
theorem callPushesTheReturnAddressAndJumps : Obligations.CallPushesTheReturnAddressAndJumps := by
  intro k s
  refine ⟨decode_k (o := .call) rfl k, fun hslot => ?_, dataFaults_of_dataAddr rfl rfl⟩
  exact ⟨_, exec_call_of_lt hslot, rfl, rfl, State.setRam_write_frame _ _, fun _ => rfl,
    fun _ => rfl, rfl, rfl, rfl, fun _ => rfl⟩

/-- Settles O43: RET ends with `pc` and `sp` written and nothing else. -/
theorem retPopsTheProgramCounter : Obligations.RetPopsTheProgramCounter := by
  intro s
  refine ⟨decode_n (o := .ret) rfl, fun hslot => ?_, dataFaults_of_dataAddr rfl rfl⟩
  exact ⟨_, exec_ret_of_lt hslot, rfl, rfl, fun _ => rfl, fun _ => rfl, fun _ => rfl, rfl, rfl, rfl,
    fun _ => rfl⟩

/-- Settles O39: BRBS is the branch taken when its flag is set. -/
theorem brbsBranchesWhenTheFlagIsSet : Obligations.BrbsBranchesWhenTheFlagIsSet :=
  fun f k s => ⟨fun lo => decode_nibblePair_const (o := .brbs) rfl f lo k, _, rfl,
    branchIf_spec (getFlag s.flags f) k s⟩

/-- Settles O40: BRBC is the branch taken when its flag is not set. -/
theorem brbcBranchesWhenTheFlagIsClear : Obligations.BrbcBranchesWhenTheFlagIsClear := by
  intro f k s
  obtain ⟨htaken, hnot, hframe⟩ := branchIf_spec (!getFlag s.flags f) k s
  exact ⟨fun lo => decode_nibblePair_const (o := .brbc) rfl f lo k, _, rfl,
    fun hclear => htaken (by rw [hclear, Bool.not_false]),
    fun hset => hnot (by rw [hset, Bool.not_true]), hframe⟩

/-- Settles O41: JMP writes `pc` only. -/
theorem jmpGoesToTheAbsoluteAddress : Obligations.JmpGoesToTheAbsoluteAddress :=
  fun k s => ⟨decode_k (o := .jmp) rfl k, _, rfl, s.setPc_pc k, s.setPc_frame k⟩

/-- Settles O44: NOP writes `pc` only. -/
theorem nopOnlyAdvances : Obligations.NopOnlyAdvances :=
  fun s => ⟨decode_n (o := .nop) rfl, _, rfl, s.advance_pc 1, s.setPc_frame _⟩

end Sys2Proof.Machine

/-! PROOF. Data movement and stack (43_data_stack.md): the bounds fault of a data access behind the
register checks (R175 (5) to (8)), and the states that LDI, MOV, LD, ST, PUSH and POP end in (R155 to
R158, R160, R161). -/

namespace Sys2Proof.Machine

/-! ## The bounds fault behind the register checks -/

section
variable {s : State} {i : Instr} {d r : RegIdx} {a : Byte}

/-- An instruction whose one register exists passes the range checks. -/
theorem rangeFault_eq_none_of_hiReg (hhi : i.hiReg = some d) (hlo : i.loReg = none)
    (hbit : i.bitOperand = none) (hd : RegExists s d) : rangeFault s.cfg i = none := by
  simp [rangeFault, hhi, hlo, hbit, hd]

/-- An instruction whose two registers exist passes the range checks. -/
theorem rangeFault_eq_none_of_hiReg_loReg (hhi : i.hiReg = some d) (hlo : i.loReg = some r)
    (hbit : i.bitOperand = none) (hd : RegExists s d) (hr : RegExists s r) :
    rangeFault s.cfg i = none := by
  simp [rangeFault, hhi, hlo, hbit, hd, hr]

/-- The data address of an instruction with one register is checked once that register exists. -/
theorem dataFaults_of_hiReg (hhi : i.hiReg = some d) (hlo : i.loReg = none)
    (hbit : i.bitOperand = none) (haddr : (storeAddr s i <|> loadAddr s i) = some a)
    (hd : RegExists s d) : DataFaults i a (BitVec.ofNat 8 i.opcode.len) s :=
  dataFaults_of_dataAddr (rangeFault_eq_none_of_hiReg hhi hlo hbit hd) haddr

/-- The data address of an instruction with two registers is checked once both exist. -/
theorem dataFaults_of_hiReg_loReg (hhi : i.hiReg = some d) (hlo : i.loReg = some r)
    (hbit : i.bitOperand = none) (haddr : (storeAddr s i <|> loadAddr s i) = some a)
    (hd : RegExists s d) (hr : RegExists s r) : DataFaults i a (BitVec.ofNat 8 i.opcode.len) s :=
  dataFaults_of_dataAddr (rangeFault_eq_none_of_hiReg_loReg hhi hlo hbit hd hr) haddr

end

/-! ## The states the instructions end in -/

/-- LDI, MOV and LD alike: the destination holds the value, `pc` moves on by `n`, and nothing else is
written. -/
theorem State.setReg_advance_spec (s : State) (d : RegIdx) (v n : Byte) :
    ((s.setReg d v).advance n).reg d = v ∧ ((s.setReg d v).advance n).pc = s.pc + n ∧
      FrameExcept d [] s ((s.setReg d v).advance n) := by
  refine ⟨?_, rfl, s.setReg_frame d v, fun _ _ => rfl, rfl, fun _ => rfl, rfl, rfl, rfl, fun _ => rfl⟩
  simp

section
variable {s : State} {d r : RegIdx}

/-- With its register in range LDI writes the constant there. -/
theorem exec_ldi_of_regExists {k : Byte} (hd : RegExists s d) :
    exec (.ldi d k) s = .next ((s.setReg d k).advance 3) := by
  rw [exec, execLdi, State.checkReg_ok hd, ok_bind, retire_ok]

/-- With both registers in range MOV writes the one's old value to the other. -/
theorem exec_mov_of_regExists (hd : RegExists s d) (hr : RegExists s r) :
    exec (.mov d r) s = .next ((s.setReg d (s.reg r)).advance 2) := by
  rw [exec, execMov, State.checkReg_ok hd, ok_bind, State.readReg_ok hr, ok_bind, retire_ok]

/-- With its operands in range LD writes the byte that the old pointer names. -/
theorem exec_ld_of_lt (hd : RegExists s d) (hr : RegExists s r)
    (ha : (s.reg r).toNat < s.cfg.ramSize) :
    exec (.ld d r) s =
      .next ((s.setReg d (Memory.read s.ram (s.reg r).toNat)).advance 2) := by
  rw [exec, execLd, State.checkReg_ok hd, ok_bind, State.readReg_ok hr, ok_bind,
    State.memRead_ok ha, ok_bind, retire_ok]

/-- With its operands in range ST writes the register to the byte that the pointer names. -/
theorem exec_st_of_lt (hd : RegExists s d) (hr : RegExists s r)
    (ha : (s.reg d).toNat < s.cfg.ramSize) :
    exec (.st d r) s =
      .next ((s.setRam (Memory.write s.ram (s.reg d).toNat (s.reg r))).advance 2) := by
  rw [exec, execSt, State.readReg_ok hd, ok_bind, State.readReg_ok hr, ok_bind,
    State.memWrite_ok ha, ok_bind, retire_ok]

/-- With its register and its slot in range PUSH writes the register to the slot and leaves `sp`
there. -/
theorem exec_push_of_lt (hr : RegExists s r) (hslot : (s.sp - 1).toNat < s.cfg.ramSize) :
    exec (.push r) s =
      .next (((s.setRam (Memory.write s.ram (s.sp - 1).toNat (s.reg r))).setSp
        (s.sp - 1)).advance 2) := by
  rw [exec, execPush, State.readReg_ok hr, ok_bind, State.pushByte_ok hslot, ok_bind, retire_ok]

/-- With its register and `sp` in range POP writes the byte at `sp` to the register and moves `sp` past
it. -/
theorem exec_pop_of_lt (hd : RegExists s d) (hslot : s.sp.toNat < s.cfg.ramSize) :
    exec (.pop d) s =
      .next (((s.setSp (s.sp + 1)).setReg d (Memory.read s.ram s.sp.toNat)).advance 2) := by
  rw [exec, execPop, State.checkReg_ok hd, ok_bind, State.popByte_ok hslot, ok_bind, retire_ok]

end

/-! ## The obligations -/

/-- Settles O46: LDI writes its register with the constant. -/
theorem ldiLoadsTheConstant : Obligations.LdiLoadsTheConstant :=
  fun d k s => ⟨fun lo => decode_nibblePair_const (o := .ldi) rfl d lo k,
    fun hd => ⟨_, exec_ldi_of_regExists hd, s.setReg_advance_spec d k 3⟩,
    oneRegFaults_of_hiReg rfl⟩

/-- Settles O47: MOV writes its first register with the second. -/
theorem movCopiesTheRegister : Obligations.MovCopiesTheRegister :=
  fun d r s => ⟨decode_nibblePair (o := .mov) rfl d r,
    fun hd hr => ⟨_, exec_mov_of_regExists hd hr, s.setReg_advance_spec d (s.reg r) 2⟩,
    twoRegFaults_of_hiReg_loReg rfl rfl⟩

/-- Settles O48: LD writes its first register with the byte the second one pointed to. -/
theorem ldLoadsTheByteThePointerNames : Obligations.LdLoadsTheByteThePointerNames :=
  fun d r s => ⟨decode_nibblePair (o := .ld) rfl d r,
    fun hd hr ha => ⟨_, exec_ld_of_lt hd hr ha, s.setReg_advance_spec d _ 2⟩,
    twoRegFaults_of_hiReg_loReg rfl rfl, dataFaults_of_hiReg_loReg rfl rfl rfl rfl⟩

/-- Settles O49: the byte at the pointer is the one byte of RAM that the state ST ends in has
written. -/
theorem stStoresTheByteAtThePointer : Obligations.StStoresTheByteAtThePointer := by
  intro d r s
  refine ⟨decode_nibblePair (o := .st) rfl d r, fun hd hr ha => ?_,
    twoRegFaults_of_hiReg_loReg rfl rfl, dataFaults_of_hiReg_loReg rfl rfl rfl rfl⟩
  exact ⟨_, exec_st_of_lt hd hr ha, State.setRam_write_frame _ _, rfl, rfl, fun _ => rfl,
    fun _ => rfl, rfl, rfl, rfl, fun _ => rfl⟩

/-- Settles O50: the slot below `sp` is the one byte of RAM that the state PUSH ends in has
written. -/
theorem pushStoresBelowTheStackPointer : Obligations.PushStoresBelowTheStackPointer := by
  intro r s
  refine ⟨fun lo => decode_nibblePair (o := .push) rfl r lo, fun hr hslot => ?_,
    oneRegFaults_of_hiReg rfl, dataFaults_of_hiReg rfl rfl rfl rfl⟩
  exact ⟨_, exec_push_of_lt hr hslot, State.setRam_write_frame _ _, rfl, rfl, fun _ => rfl,
    fun _ => rfl, rfl, rfl, rfl, fun _ => rfl⟩

/-- Settles O51: POP writes its register with the byte at the old `sp`, and stores nothing. -/
theorem popLoadsAtTheStackPointer : Obligations.PopLoadsAtTheStackPointer := by
  intro d s
  refine ⟨fun lo => decode_nibblePair (o := .pop) rfl d lo, fun hd hslot => ?_,
    oneRegFaults_of_hiReg rfl, dataFaults_of_hiReg rfl rfl rfl rfl⟩
  refine ⟨_, exec_pop_of_lt hd hslot, ?_, rfl, rfl, (s.setSp (s.sp + 1)).setReg_frame d _,
    fun _ => rfl, fun _ => rfl, rfl, rfl, rfl, fun _ => rfl⟩
  simp

end Sys2Proof.Machine

/-! PROOF. Exceptions (60_exceptions.md): a whole cycle as one end, by its first failing check or
with no control state changed, and the distance a fault of it skips (R175 to R178). -/

namespace Sys2Proof.Machine

section
variable {s : State}

/-! ## The distance a fault skips -/

/-- A fault of an instruction that was fetched skips that instruction (R177). -/
theorem State.fetchSkip_of_fetch_ok {i : Instr} (hfetch : s.fetch = .ok i) :
    s.fetchSkip = BitVec.ofNat 8 i.opcode.len := by
  cases State.fetch_eq_iff.1 hfetch with
  | @row o b1 k h =>
    have h0 : s.ifetch s.pc = .ok o.byte :=
      s.byteAtPc_zero.symm.trans (h 0 _ (o.layout_getElem?_zero b1 k))
    rw [State.fetchSkip_of_row h0 o.ofByte_byte, o.opcode_build]

/-- If no opcode of the table was fetched, a fault skips one byte (R177). -/
theorem State.fetchSkip_of_no_row
    (hrow : ∀ op o, s.ifetch s.pc = .ok op → Opcode.ofByte op ≠ some o) : s.fetchSkip = 1 := by
  cases h0 : s.ifetch s.pc with
  | error f => exact State.fetchSkip_of_error h0
  | ok op =>
    exact State.fetchSkip_of_illegal h0 (Option.eq_none_iff_forall_ne_some.2 (hrow op · h0))

/-! ## The end of a cycle -/

/-- A cycle whose fetch succeeds executes what was fetched (R86). -/
theorem step_of_fetch_ok {i : Instr} (hlegal : s.cfg.legal = true) (hfetch : s.fetch = .ok i) :
    step s = exec i s := by
  simp [step, hlegal, hfetch]

/-- Every cycle ends by its first failing check, of the fetch or of the execution, or changes no
control state; a fault skips `fetchSkip` bytes either way. -/
theorem exists_step_eq_retire (hlegal : s.cfg.legal = true) :
    ∃ r, step s = retire s s.fetchSkip r ∧ EndsWith s (cycleFault s) r := by
  cases hfetch : s.fetch with
  | error f =>
    have hfault : cycleFault s = some f := by rw [cycleFault, hfetch]
    refine ⟨.error f, step_of_fetch_error hlegal hfetch, ?_⟩
    simp [hfault, EndsWith]
  | ok i =>
    have hfault : cycleFault s = execFault s i := by rw [cycleFault, hfetch]
    rw [step_of_fetch_ok hlegal hfetch, State.fetchSkip_of_fetch_ok hfetch, hfault]
    exact exists_exec_eq_retire i s

end

/-! ## The obligation -/

/-- Settles O10: the cycle ends with the first failing check, and `fetchSkip` is the length of the
row whose opcode was fetched, or 1. -/
theorem cycleFaultsExactlyByThePriorityOrder :
    Obligations.CycleFaultsExactlyByThePriorityOrder := by
  intro s hlegal
  obtain ⟨r, hstep, hfault, hok⟩ := exists_step_eq_retire hlegal
  refine ⟨fun f hf => ?_, fun hf => ?_⟩
  · rw [hstep, hfault f hf, retire_error]
    exact ⟨_, s.fetchSkip, rfl, s.takeFault_entry f _, fun _ _ => State.fetchSkip_of_row,
      State.fetchSkip_of_no_row⟩
  · obtain ⟨t, rfl, hsame⟩ := hok hf
    exact ⟨t, hstep, hsame⟩

end Sys2Proof.Machine

/-! PROOF. What an instruction does, said once for all 22: the checks it has to pass, the state it
ends in when it passes them, field by field, and that `exec` is nothing but these two (R86, R91,
R176). The statements about every instruction are read off these fields. -/

namespace Sys2Proof.Machine

/-! ## The checks of an instruction -/

/-- Every operand of `i` and its data address are in range in `s` (R91, R53). -/
structure Passes (s : State) (i : Instr) : Prop where
  hiReg {d : RegIdx} (h : i.hiReg = some d) : RegExists s d
  loReg {r : RegIdx} (h : i.loReg = some r) : RegExists s r
  bit {b : BitIdx} (h : i.bitOperand = some b) : b.val < 8
  addr {a : Byte} (h : (storeAddr s i <|> loadAddr s i) = some a) : a.toNat < s.cfg.ramSize

/-- No fault is raised exactly if every check passes. -/
theorem execFault_eq_none_iff {s : State} {i : Instr} : execFault s i = none ↔ Passes s i := by
  have hchecks : execFault s i = none ↔
      (∀ d, i.hiReg = some d → RegExists s d) ∧ (∀ r, i.loReg = some r → RegExists s r) ∧
      (∀ b, i.bitOperand = some b → b.val < 8) ∧
      (∀ a, (storeAddr s i <|> loadAddr s i) = some a → a.toNat < s.cfg.ramSize) := by
    simp only [execFault_eq, Option.orElse_eq_none, Option.bind_eq_none_iff, regFault, bitFault,
      ramFault, ite_eq_left_iff, reduceCtorEq, imp_false, not_not, and_true]
  exact hchecks.trans ⟨fun ⟨hd, hr, hb, ha⟩ => ⟨hd _, hr _, hb _, ha _⟩,
    fun h => ⟨fun _ => h.hiReg, fun _ => h.loReg, fun _ => h.bit, fun _ => h.addr⟩⟩

/-! ## The state an instruction ends in -/

/-- The value that goes to the destination register, if there is one. -/
def result (s : State) : Instr → Byte
  | .add d r => (addResult (s.reg d) (s.reg r) false).value
  | .adc d r => (addResult (s.reg d) (s.reg r) (s.flag .carry)).value
  | .sub d r => (subResult (s.reg d) (s.reg r) false).value
  | .sbc d r => (subResult (s.reg d) (s.reg r) (s.flag .carry)).value
  | .and d r => s.reg d &&& s.reg r
  | .asr d => shiftRightArith (s.reg d)
  | .bld d b => withBit (s.reg d) b (s.flag .transfer)
  | .ldi _ k => k
  | .mov _ r => s.reg r
  | .ld _ r => Memory.read s.ram (s.reg r).toNat
  | .pop _ => Memory.read s.ram s.sp.toNat
  | _ => 0

/-- What becomes of a flag register `w`. -/
def flagWrite (s : State) (i : Instr) (w : FlagWord) : FlagWord :=
  match i with
  | .add d r => setArithFlags w (addResult (s.reg d) (s.reg r) false)
  | .adc d r => setArithFlags w (addResult (s.reg d) (s.reg r) (s.flag .carry))
  | .sub d r => setArithFlags w (subResult (s.reg d) (s.reg r) false)
  | .sbc d r => setArithFlags w (subResult (s.reg d) (s.reg r) (s.flag .carry))
  | .and d r => setLogicFlags w (s.reg d &&& s.reg r)
  | .asr d => setShiftFlags w (s.reg d)
  | .bset f => setFlag w f true
  | .bclr f => setFlag w f false
  | .bst d b => setFlag w Flag.transfer.index (bitOf (s.reg d) b)
  | _ => w

/-- Where the next instruction is. -/
def nextPc (s : State) (i : Instr) : Byte :=
  match i with
  | .brbs f k => if getFlag s.flags f then branchTarget s.pc k else s.pc + 3
  | .brbc f k => if !getFlag s.flags f then branchTarget s.pc k else s.pc + 3
  | .jmp k | .call k => k
  | .ret => Memory.read s.ram s.sp.toNat
  | _ => s.pc + BitVec.ofNat 8 i.opcode.len

/-- Where the stack pointer ends (R159). -/
def nextSp (s : State) : Instr → Byte
  | .push _ | .call _ => s.sp - 1
  | .pop _ | .ret => s.sp + 1
  | _ => s.sp

/-- The byte that is stored, if one is: the register of ST and PUSH, the return address of CALL. -/
def storedByte (s : State) : Instr → Byte
  | .st _ r | .push r => s.reg r
  | _ => s.pc + 2

/-- The state in which `i` ends a cycle that began in `s` and passed every check. -/
def State.effect (s : State) (i : Instr) : State :=
  { s with
    regs := (destReg i).elim s.regs fun d => s.regs.set d.val (result s i)
    pc := nextPc s i
    sp := nextSp s i
    flags := flagWrite s i s.flags
    ram := (storeAddr s i).elim s.ram fun a => Memory.write s.ram a.toNat (storedByte s i) }

section
variable {s : State} {i : Instr}

@[simp] theorem State.effect_cfg : (s.effect i).cfg = s.cfg := rfl
@[simp] theorem State.effect_fault : (s.effect i).fault = s.fault := rfl
@[simp] theorem State.effect_run : (s.effect i).run = s.run := rfl
@[simp] theorem State.effect_rom : (s.effect i).rom = s.rom := rfl
@[simp] theorem State.effect_sp : (s.effect i).sp = nextSp s i := rfl
@[simp] theorem State.effect_flags : (s.effect i).flags = flagWrite s i s.flags := rfl

/-- An instruction that stores nothing leaves RAM as it is. -/
theorem State.effect_ram_of_none (h : storeAddr s i = none) : (s.effect i).ram = s.ram := by
  simp [State.effect, h]

/-- An instruction that stores writes one byte. -/
theorem State.effect_ram_of_some {a : Byte} (h : storeAddr s i = some a) :
    (s.effect i).ram = Memory.write s.ram a.toNat (storedByte s i) := by
  simp [State.effect, h]

/-- A register that is not the destination is kept (R22). -/
theorem State.effect_reg_of_ne {j : RegIdx} (h : destReg i ≠ some j) :
    (s.effect i).reg j = s.reg j := by
  cases hd : destReg i with
  | none => simp [State.reg, State.effect, hd]
  | some d =>
    have hreg : (s.effect i).reg j = (s.setReg d (result s i)).reg j := by
      simp [State.reg, State.effect, hd]
    have hne : j ≠ d := fun hj => h (hj ▸ hd)
    rw [hreg, State.setReg_reg, if_neg hne]

/-! ## `exec` -/

/-- A passing two-register instruction writes back what its function gives (R110). -/
theorem retire_aluRegReg_of_passes {f : Byte → Byte → FlagWord → Byte × FlagWord} {d r : RegIdx}
    (h : Passes s i) (hhi : i.hiReg = some d) (hlo : i.loReg = some r) :
    retire s 2 (aluRegReg d r f s) = .next (s.writeBack d (f (s.reg d) (s.reg r) s.flags).1
      (f (s.reg d) (s.reg r) s.flags).2) :=
  congrArg (retire s 2) (aluRegReg_eq_writeBack (h.hiReg hhi) (h.loReg hlo))

/-- An instruction that passes its checks ends in its effect. -/
theorem exec_of_passes (h : Passes s i) : exec i s = .next (s.effect i) := by
  cases i with
  | nop => rfl
  | add d r => exact retire_aluRegReg_of_passes h rfl rfl
  | adc d r => exact retire_aluRegReg_of_passes h rfl rfl
  | sub d r => exact retire_aluRegReg_of_passes h rfl rfl
  | sbc d r => exact retire_aluRegReg_of_passes h rfl rfl
  | and d r => exact retire_aluRegReg_of_passes h rfl rfl
  | asr d => exact exec_asr_eq_writeBack (h.hiReg rfl)
  | bset f => rfl
  | bclr f => rfl
  | bst d b => exact exec_bst_eq_writeFlag (h.hiReg rfl) (h.bit rfl)
  | bld d b => exact exec_bld_eq_writeBack (h.hiReg rfl) (h.bit rfl)
  | brbs f k => exact congrArg _ (branchIf_eq_setPc _ k s)
  | brbc f k => exact congrArg _ (branchIf_eq_setPc _ k s)
  | jmp k => rfl
  | call k => exact exec_call_of_lt (h.addr rfl)
  | ret => exact exec_ret_of_lt (h.addr rfl)
  | ldi d k => exact exec_ldi_of_regExists (h.hiReg rfl)
  | mov d r => exact exec_mov_of_regExists (h.hiReg rfl) (h.loReg rfl)
  | ld d r => exact exec_ld_of_lt (h.hiReg rfl) (h.loReg rfl) (h.addr rfl)
  | st d r => exact exec_st_of_lt (h.hiReg rfl) (h.loReg rfl) (h.addr rfl)
  | push r => exact exec_push_of_lt (h.hiReg rfl) (h.addr rfl)
  | pop d => exact exec_pop_of_lt (h.hiReg rfl) (h.addr rfl)

/-- With no fault to raise, `exec` answers the effect. -/
theorem exec_of_execFault_eq_none (h : execFault s i = none) : exec i s = .next (s.effect i) :=
  exec_of_passes (execFault_eq_none_iff.1 h)

/-- With a fault to raise, `exec` takes it and skips the instruction's length (R177). -/
theorem exec_of_execFault_eq_some {f : CycleFault} (h : execFault s i = some f) :
    exec i s = .next (s.takeFault f (BitVec.ofNat 8 i.opcode.len)) := by
  obtain ⟨r, hexec, hfault, -⟩ := exists_exec_eq_retire i s
  rw [hexec, hfault f h, retire_error]

/-- The two ends of an execution: the fault it raises, or its effect. -/
theorem exec_cases {t : State} (h : exec i s = .next t) :
    (∃ f, execFault s i = some f ∧ t = s.takeFault f (BitVec.ofNat 8 i.opcode.len)) ∨
      execFault s i = none ∧ t = s.effect i := by
  cases hfault : execFault s i with
  | some f =>
    rw [exec_of_execFault_eq_some hfault] at h
    cases h
    exact .inl ⟨f, rfl, rfl⟩
  | none =>
    rw [exec_of_execFault_eq_none hfault] at h
    cases h
    exact .inr ⟨rfl, rfl⟩

end

/-! ## The flags -/

/-- `g` writes the flags listed in `l`, with values that do not depend on the word written, and
keeps every other flag. -/
def Overwrites (l : List FlagIdx) (g : FlagWord → FlagWord) : Prop :=
  ∀ (w w' : FlagWord) (j : FlagIdx),
    getFlag (g w') j = if j ∈ l then getFlag (g w) j else getFlag w' j

theorem Overwrites.none : Overwrites [] id :=
  fun _ _ _ => (if_neg List.not_mem_nil).symm

/-- One more flag is written. -/
theorem Overwrites.setFlag {l : List FlagIdx} {g : FlagWord → FlagWord} (h : Overwrites l g)
    (f : FlagIdx) (x : Bool) : Overwrites (f :: l) fun w => setFlag (g w) f x := by
  intro w w' j
  by_cases hj : j = f <;> simp [hj, h w w' j]

/-- The order in which the flags are listed does not matter. -/
theorem Overwrites.of_mem_iff {l l' : List FlagIdx} {g : FlagWord → FlagWord} (h : Overwrites l g)
    (hl : ∀ j, j ∈ l ↔ j ∈ l') : Overwrites l' g := by
  intro w w' j
  rw [h w w' j, if_congr (hl j) rfl rfl]

theorem setArithFlags_overwrites (r : AluResult) :
    Overwrites [0, 1, 2, 5, 6] fun w => setArithFlags w r :=
  (((((Overwrites.none.setFlag 0 r.z).setFlag 1 r.c).setFlag 2 r.v).setFlag 5 r.h).setFlag 6
    r.s).of_mem_iff (by decide)

theorem setLogicFlags_overwrites (v : Byte) : Overwrites [0, 6] fun w => setLogicFlags w v :=
  ((Overwrites.none.setFlag 0 (isZero v)).setFlag 6 (signBit v)).of_mem_iff (by decide)

theorem setShiftFlags_overwrites (a : Byte) : Overwrites [0, 1, 6] fun w => setShiftFlags w a :=
  ((setLogicFlags_overwrites (shiftRightArith a)).setFlag 1 (a.getLsbD 0)).of_mem_iff (by decide)

/-- An instruction writes its declared flags, and no others (R27). -/
theorem flagWrite_overwrites (s : State) (i : Instr) :
    Overwrites (writtenFlags i) (flagWrite s i) := by
  cases i with
  | add | adc | sub | sbc => exact setArithFlags_overwrites _
  | and => exact setLogicFlags_overwrites _
  | asr => exact setShiftFlags_overwrites _
  | bset | bclr | bst => exact Overwrites.none.setFlag _ _
  | _ => exact Overwrites.none

end Sys2Proof.Machine

/-! PROOF. What every instruction leaves alone, and what none of them reads: the frames of the
flag register, the register file, memory and `sp` (R13, R22, R30), and pairs of runs that start
from states which differ in ROM, in the flags, or in FAULT and RUN (R28, R31, R32, R53). -/

namespace Sys2Proof.Machine

/-! ## Frames -/

/-- Settles O16: a fault keeps the flag register, an effect overwrites the declared flags. -/
theorem onlyTheDeclaredFlagsChange : Obligations.OnlyTheDeclaredFlagsChange := by
  intro i s t h j hj
  rcases exec_cases h with ⟨f, -, rfl⟩ | ⟨-, rfl⟩
  · rfl
  · rw [State.effect_flags, flagWrite_overwrites s i s.flags s.flags j, if_neg hj]

/-- Settles O17: a fault keeps the register file, an effect writes the destination only. -/
theorem onlyTheDestinationRegisterChanges : Obligations.OnlyTheDestinationRegisterChanges := by
  intro i s t h j hj
  rcases exec_cases h with ⟨f, -, rfl⟩ | ⟨-, rfl⟩
  · rfl
  · exact State.effect_reg_of_ne hj

/-- Away from the store address an effect leaves every byte of RAM as it was. -/
theorem State.read_effect_ram {s : State} {i : Instr} {a : Nat} (hwf : Memory.wf s.ram = true)
    (ha : ∀ b, storeAddr s i = some b → a ≠ b.toNat) :
    Memory.read (s.effect i).ram a = Memory.read s.ram a := by
  cases hstore : storeAddr s i with
  | none => rw [State.effect_ram_of_none hstore]
  | some b =>
    rw [State.effect_ram_of_some hstore, Memory.read_write _ _ _ hwf, if_neg (ha b hstore)]

/-- Settles O18: a fault keeps memory, an effect writes the byte at the store address only. -/
theorem onlyTheStoredByteOfMemoryChanges : Obligations.OnlyTheStoredByteOfMemoryChanges := by
  intro i s t hwf h
  rcases exec_cases h with ⟨f, -, rfl⟩ | ⟨-, rfl⟩
  · exact ⟨fun _ _ => rfl, fun _ => rfl, rfl⟩
  · exact ⟨fun _ => State.read_effect_ram hwf, fun _ => rfl, rfl⟩

/-- The stack pointer moves by at most one, and only for the four stack instructions (R30, R159). -/
theorem nextSp_spec (s : State) (i : Instr) :
    (usesStack i = false → nextSp s i = s.sp) ∧
      (nextSp s i = s.sp ∨ nextSp s i = s.sp - 1 ∨ nextSp s i = s.sp + 1) := by
  cases i with
  | push | call => exact ⟨nofun, .inr (.inl rfl)⟩
  | pop | ret => exact ⟨nofun, .inr (.inr rfl)⟩
  | _ => exact ⟨fun _ => rfl, .inl rfl⟩

/-- Settles O19: a fault keeps `sp`, an effect moves it as `nextSp` says. -/
theorem onlyStackInstructionsMoveTheStackPointer :
    Obligations.OnlyStackInstructionsMoveTheStackPointer := by
  intro i s t h
  rcases exec_cases h with ⟨f, -, rfl⟩ | ⟨-, rfl⟩
  · exact ⟨fun _ => rfl, .inl rfl⟩
  · exact nextSp_spec s i

/-! ## ROM -/

section
variable (s : State) (i : Instr)

/-- No check looks at ROM. -/
@[simp] theorem execFault_setRom (m : Memory) : execFault (s.setRom m) i = execFault s i := by
  cases i <;> rfl

/-- No field of the effect depends on ROM. -/
@[simp] theorem State.effect_setRom (m : Memory) :
    (s.setRom m).effect i = (s.effect i).setRom m := by
  cases i <;> rfl

end

/-- Settles O23: neither the checks nor the effect depend on ROM, so both runs end alike. -/
theorem noInstructionReadsRomAsData : Obligations.NoInstructionReadsRomAsData := by
  intro i s t m h
  rcases exec_cases h with ⟨f, hfault, rfl⟩ | ⟨hnone, rfl⟩
  · rw [exec_of_execFault_eq_some ((execFault_setRom s i m).trans hfault)]
    rfl
  · rw [exec_of_execFault_eq_none ((execFault_setRom s i m).trans hnone), State.effect_setRom]

/-! ## FAULT and RUN -/

section
variable (s : State) (i : Instr)

/-- The machine with other contents of FAULT and RUN. -/
def State.setFaultRun (f : FaultReg) (r : RunState) : State := { s with fault := f, run := r }

/-- No check looks at FAULT or RUN. -/
@[simp] theorem execFault_setFaultRun (f : FaultReg) (r : RunState) :
    execFault (s.setFaultRun f r) i = execFault s i := by
  cases i <;> rfl

/-- No field of the effect depends on FAULT or RUN. -/
@[simp] theorem State.effect_setFaultRun (f : FaultReg) (r : RunState) :
    (s.setFaultRun f r).effect i = (s.effect i).setFaultRun f r := by
  cases i <;> rfl

/-- Taking a fault overwrites FAULT, and takes RUN from Booted to Halted (R176). -/
theorem State.takeFault_setFaultRun (f : FaultReg) (r : RunState) (e : CycleFault) (n : Byte) :
    (s.setFaultRun f r).takeFault e n =
      { s.takeFault e n with run := if r = .booted then .halted else r } := by
  cases r <;> rfl

end

/-- Settles O25: neither the checks nor the effect depend on FAULT and RUN; a fault writes both. -/
theorem noInstructionReadsFaultOrRun : Obligations.NoInstructionReadsFaultOrRun := by
  intro i s t f r h
  have hcheck := execFault_setFaultRun s i f r
  rcases exec_cases h with ⟨e, hfault, rfl⟩ | ⟨hnone, rfl⟩
  · refine ⟨fun hnone => absurd (hfault.symm.trans hnone) (Option.some_ne_none e), fun _ => ?_⟩
    exact (exec_of_execFault_eq_some (hcheck.trans hfault)).trans
      (congrArg _ (s.takeFault_setFaultRun f r e _))
  · refine ⟨fun _ => ?_, fun hsome => absurd hnone hsome⟩
    exact (exec_of_execFault_eq_none (hcheck.trans hnone)).trans
      (congrArg _ (s.effect_setFaultRun i f r))

/-! ## The flags -/

section
variable (s : State) (i : Instr)

/-- No check looks at the flags. -/
@[simp] theorem execFault_setFlags (w : FlagWord) : execFault (s.setFlags w) i = execFault s i := by
  cases i <;> rfl

section
variable {s i} {w : FlagWord} (h : ∀ j ∈ readFlags i, getFlag w j = getFlag s.flags j)
include h

theorem State.flag_setFlags_of_mem {f : Flag} (hf : f.index ∈ readFlags i) :
    (s.setFlags w).flag f = s.flag f :=
  h f.index hf

/-! Flag words that agree on the flags the instruction reads give the same result, write the same
flags and go to the same place. -/

theorem result_setFlags : result (s.setFlags w) i = result s i := by
  cases i with
  | adc | sbc =>
    have hcarry := State.flag_setFlags_of_mem h (f := .carry) List.mem_cons_self
    simp [result, hcarry]
  | bld =>
    have htransfer := State.flag_setFlags_of_mem h (f := .transfer) List.mem_cons_self
    simp [result, htransfer]
  | _ => rfl

theorem flagWrite_setFlags : flagWrite (s.setFlags w) i = flagWrite s i := by
  cases i with
  | adc | sbc =>
    have hcarry := State.flag_setFlags_of_mem h (f := .carry) List.mem_cons_self
    funext w'
    simp [flagWrite, hcarry]
  | _ => rfl

theorem nextPc_setFlags : nextPc (s.setFlags w) i = nextPc s i := by
  cases i with
  | brbs f | brbc f =>
    have hbranch : getFlag w f = getFlag s.flags f := h f List.mem_cons_self
    simp [nextPc, hbranch]
  | _ => rfl

/-- The effects differ in the flags only, each of which is written or kept. -/
theorem State.effect_setFlags :
    (s.setFlags w).effect i = (s.effect i).setFlags (flagWrite s i w) := by
  rw [State.effect, result_setFlags h, flagWrite_setFlags h, nextPc_setFlags h]
  cases i <;> rfl

end

end

/-- Settles O24: the checks read no flag, a fault keeps the flags, and an effect overwrites those it
declares. -/
theorem onlyFiveInstructionsReadAFlag : Obligations.OnlyFiveInstructionsReadAFlag := by
  intro i s t w hreads h
  have hcheck := execFault_setFlags s i w
  rcases exec_cases h with ⟨f, hfault, rfl⟩ | ⟨hnone, rfl⟩
  · exact ⟨w, exec_of_execFault_eq_some (hcheck.trans hfault),
      fun hnone => absurd (hfault.symm.trans hnone) (Option.some_ne_none f), fun _ _ => rfl⟩
  · refine ⟨flagWrite s i w, ?_, fun _ => flagWrite_overwrites s i s.flags w,
      fun hsome => absurd hnone hsome⟩
    rw [exec_of_execFault_eq_none (hcheck.trans hnone), State.effect_setFlags hreads]

end Sys2Proof.Machine

/-! PROOF. The encoder and one cycle (30_encoding.md): decoding what was encoded (R81), the step
as the fetch and the execution of what the bytes at `pc` decode to (R86), and the two ends of a
cycle, from which the statements about RUN, the instruction space and safe runs follow. -/

namespace Sys2Proof.Machine

/-! ## The encoder -/

/-- Settles O1: the decoder runs on each word. -/
theorem specWordsDecodeAsTheTableSays : Obligations.SpecWordsDecodeAsTheTableSays := by
  unfold Obligations.SpecWordsDecodeAsTheTableSays
  decide

/-- The encoding of an instruction is the layout of its row with its own fields (R81). -/
theorem encode_eq_layout (i : Instr) :
    encode i = i.opcode.layout (nibblePair i.hi i.lo) i.const := rfl

/-- An instruction is what its row builds from its own fields (R87). -/
theorem build_fields (i : Instr) : i.opcode.build i.hi i.lo i.const = i := by
  cases i <;> rfl

/-- Settles O2: the encoding is a layout, the nibble pair gives its nibbles back, and the row
builds the instruction from them. -/
theorem decodeOfEncodeGivesBackTheInstruction :
    Obligations.DecodeOfEncodeGivesBackTheInstruction := by
  intro i rest
  rw [encode_eq_layout, decode_layout_append, hiNibble_nibblePair, loNibble_nibblePair,
    build_fields]

/-- Settles O6: what decodes is the layout of a row, and the bytes at `pc` supply it to the
fetch. -/
theorem stepRunsTheDecodedInstruction : Obligations.StepRunsTheDecodedInstruction := by
  intro s bs rest i hlegal hbytes hdec
  obtain ⟨o, b1, k, rfl, rfl⟩ := exists_layout_of_decode hdec
  have hrow : Supplies s.byteAtPc (o.layout b1 k) := fun n b hb => hbytes n b <| by
    rw [List.getElem?_append_left (List.getElem?_eq_some_iff.1 hb).1, hb]
  exact step_of_fetch_ok hlegal (State.fetch_eq_iff.2 (.row hrow))

/-! ## The ends of a cycle -/

/-- Settles O8: `construct` and `step` ask for a legal configuration first. -/
theorem illegalConfigurationIsRefused : Obligations.IllegalConfigurationIsRefused :=
  fun c s => ⟨by simp [Config.legal], fun h => by simp [construct, h], fun h => by simp [step, h]⟩

/-- A cycle answers a next state, whether it faults or not. -/
theorem exists_retire (s : State) (n : Byte) (r : Except CycleFault State) :
    ∃ t, retire s n r = .next t := by
  cases r with
  | ok t => exact ⟨t, retire_ok s t n⟩
  | error f => exact ⟨_, retire_error s n f⟩

/-- Settles O9: executions and cycles end by `retire`. -/
theorem everyCycleGivesANextState : Obligations.EveryCycleGivesANextState := by
  refine ⟨fun i s => ?_, fun s hlegal => ?_⟩
  · obtain ⟨r, hexec, -⟩ := exists_exec_eq_retire i s
    exact hexec ▸ exists_retire s _ r
  · obtain ⟨r, hstep, -⟩ := exists_step_eq_retire hlegal
    exact hstep ▸ exists_retire s _ r

section
variable {s t : State}

/-- Only a legal machine has cycles (R7). -/
theorem legal_of_step (h : step s = .next t) : s.cfg.legal = true := by
  by_contra hlegal
  simp [step, hlegal] at h

/-- A cycle with a failing check takes that fault. -/
theorem step_of_cycleFault_eq_some {f : CycleFault} (hlegal : s.cfg.legal = true)
    (hf : cycleFault s = some f) : step s = .next (s.takeFault f s.fetchSkip) := by
  obtain ⟨r, hstep, hfault, -⟩ := exists_step_eq_retire hlegal
  rw [hstep, hfault f hf, retire_error]

/-- The two ends of a cycle: the fault of its first failing check, or the effect of an instruction
that passes all of them. -/
theorem step_cases (h : step s = .next t) :
    (∃ f, cycleFault s = some f ∧ t = s.takeFault f s.fetchSkip) ∨
      cycleFault s = none ∧ ∃ i, execFault s i = none ∧ t = s.effect i := by
  have hlegal := legal_of_step h
  cases hf : cycleFault s with
  | some f =>
    rw [step_of_cycleFault_eq_some hlegal hf] at h
    cases h
    exact .inl ⟨f, rfl, rfl⟩
  | none =>
    cases hfetch : s.fetch with
    | error f => simp [cycleFault, hfetch] at hf
    | ok i =>
      have hnone : execFault s i = none := by simpa [cycleFault, hfetch] using hf
      rw [step_of_fetch_ok hlegal hfetch, exec_of_execFault_eq_none hnone] at h
      cases h
      exact .inr ⟨rfl, i, hnone, rfl⟩

/-- No cycle changes ROM. -/
theorem step_rom (h : step s = .next t) : t.rom = s.rom := by
  rcases step_cases h with ⟨f, -, rfl⟩ | ⟨-, i, -, rfl⟩ <;> rfl

/-- No cycle changes the configuration. -/
theorem step_cfg (h : step s = .next t) : t.cfg = s.cfg := by
  rcases step_cases h with ⟨f, -, rfl⟩ | ⟨-, i, -, rfl⟩ <;> rfl

end

/-- Settles O20: an effect keeps RUN, and so does a fault, but for a Booted machine. -/
theorem onlyAFaultStopsABootedMachine : Obligations.OnlyAFaultStopsABootedMachine := by
  intro s t h
  rcases step_cases h with ⟨f, hf, rfl⟩ | ⟨hnone, i, -, rfl⟩
  · by_cases hrun : s.run = .booted
    · exact .inr ⟨hrun, State.takeFault_run_booted hrun, by simp [hf]⟩
    · exact .inl ⟨State.takeFault_run_idle hrun, fun h => absurd h hrun⟩
  · exact .inl ⟨rfl, fun _ => hnone⟩

/-! ## The instruction space -/

/-- Settles O21: a chip with a ROM fetches from it, and a cycle changes neither ROM nor its size. -/
theorem noCycleWritesTheInstructionSpaceOfARomChip :
    Obligations.NoCycleWritesTheInstructionSpaceOfARomChip := by
  intro s t hrom h a
  simp only [State.ifetch, State.imem, step_cfg h, step_rom h, if_pos hrom]

/-- With no ROM an address of RAM fetches its byte of RAM (R51). -/
theorem State.ifetch_of_romSize_eq_zero {s : State} {a : Byte} (hrom : s.cfg.romSize = 0)
    (ha : a.toNat < s.cfg.ramSize) : s.ifetch a = .ok (Memory.read s.ram a.toNat) := by
  simp [State.ifetch, State.imem, imemSize, hrom, ha]

/-- With no ROM the stored byte is fetched at the store address. -/
theorem State.ifetch_effect_of_storeAddr {s t : State} {i : Instr} {a : Byte}
    (hrom : s.cfg.romSize = 0) (hwf : Memory.wf s.ram = true) (hstore : storeAddr s i = some a)
    (hnone : execFault s i = none) (h : exec i s = .next t) :
    t.ifetch a = .ok (storedByte s i) := by
  obtain rfl : s.effect i = t :=
    Host.Outcome.next.inj ((exec_of_execFault_eq_none hnone).symm.trans h)
  have ha : a.toNat < s.cfg.ramSize := (execFault_eq_none_iff.1 hnone).addr (by simp [hstore])
  rw [State.ifetch_of_romSize_eq_zero (s := s.effect i) hrom ha, State.effect_ram_of_some hstore,
    Memory.read_write _ _ _ hwf, if_pos rfl]

/-- Settles O22: ST, PUSH and CALL store at their store address. -/
theorem storedBytesAreFetchedNext : Obligations.StoredBytesAreFetchedNext :=
  fun _ _ hrom hwf => ⟨fun _ _ => State.ifetch_effect_of_storeAddr hrom hwf rfl,
    fun _ => State.ifetch_effect_of_storeAddr hrom hwf rfl,
    fun _ => State.ifetch_effect_of_storeAddr hrom hwf rfl⟩

/-! ## Safe runs -/

/-- A run goes on from the state its first step answers. -/
theorem run_succ_of_next {M : Host.Core} {s t : M.State} (k : Nat) (h : M.step s = .next t) :
    M.run (k + 1) s = M.run k t := by
  rw [Host.Core.run, h]

/-- Settles O60: by induction on the number of steps, each of which keeps the control state. -/
theorem safeRunsCompleteAndRecordNoFault : Obligations.SafeRunsCompleteAndRecordNoFault := by
  intro k
  induction k with
  | zero => exact fun s _ _ => ⟨s, rfl, SameControl.rfl s⟩
  | succ k ih =>
    intro s hlegal ⟨hnone, hsafe⟩
    obtain ⟨t, hstep, hsame⟩ := (cycleFaultsExactlyByThePriorityOrder s hlegal).2 hnone
    have hlegal' : t.cfg.legal = true := step_cfg hstep ▸ hlegal
    obtain ⟨u, hrun, hsame'⟩ := ih t hlegal' (hsafe t hstep)
    exact ⟨u, (run_succ_of_next (M := core) k hstep).trans hrun, hsame.trans hsame'⟩

end Sys2Proof.Machine

/-! PROOF. What the host does between cycles (60_exceptions.md section 7, 10_state.md section 8):
what each event and each write of the load interface answers, said once, and induction over a list
of events. -/

namespace Sys2Proof.Machine

/-! ## Halt -/

section
variable {s t : State}

/-- A Booted machine is Halted (R187). -/
theorem State.halt_run_of_booted (h : s.run = .booted) : s.halt.run = .halted := by
  simp [State.halt, h]

/-- A machine that is not Booted is not changed by `Halt`. -/
theorem State.halt_of_idle (h : s.run ≠ .booted) : s.halt = s := by
  cases hr : s.run
  case booted => exact absurd hr h
  all_goals simp [State.halt, hr]

/-- `Halt` writes no field but RUN. -/
theorem State.halt_eq (s : State) : s.halt = { s with run := s.halt.run } := by
  by_cases h : s.run = .booted
  · simp [State.halt, h]
  · rw [State.halt_of_idle h]

@[simp] theorem State.halt_cfg (s : State) : s.halt.cfg = s.cfg := by rw [State.halt_eq]
@[simp] theorem State.halt_regs (s : State) : s.halt.regs = s.regs := by rw [State.halt_eq]
@[simp] theorem State.halt_reg (s : State) (j : RegIdx) : s.halt.reg j = s.reg j := by
  rw [State.reg, State.halt_regs, State.reg]
@[simp] theorem State.halt_pc (s : State) : s.halt.pc = s.pc := by rw [State.halt_eq]
@[simp] theorem State.halt_sp (s : State) : s.halt.sp = s.sp := by rw [State.halt_eq]
@[simp] theorem State.halt_flags (s : State) : s.halt.flags = s.flags := by rw [State.halt_eq]
@[simp] theorem State.halt_fault (s : State) : s.halt.fault = s.fault := by rw [State.halt_eq]
@[simp] theorem State.halt_ram (s : State) : s.halt.ram = s.ram := by rw [State.halt_eq]
@[simp] theorem State.halt_rom (s : State) : s.halt.rom = s.rom := by rw [State.halt_eq]

/-- Settles O54: `Halt` answers `State.halt`, which writes RUN only, and only of a Booted
machine. -/
theorem haltStopsOnlyABootedMachine : Obligations.HaltStopsOnlyABootedMachine := by
  intro s
  refine ⟨s.halt, rfl, State.halt_run_of_booted, fun h => by rw [State.halt_of_idle h], s.halt_reg,
    fun i => ?_, s.halt_pc, s.halt_sp, fun a => ?_, fun a => ?_, s.halt_fault, s.halt_cfg⟩
  · rw [State.halt_flags]
  · rw [State.halt_ram]
  · rw [State.halt_rom]

/-! ## Step and tick -/

theorem hostEvent_step_of_booted (h : s.run = .booted) : hostEvent .step s = .next s := by
  simp [hostEvent, h]

theorem hostEvent_tick_of_booted (h : s.run = .booted) : hostEvent .tick s = step s := by
  simp [hostEvent, h]

theorem hostEvent_step_of_idle (h : s.run ≠ .booted) : hostEvent .step s = step s := by
  cases hr : s.run
  case booted => exact absurd hr h
  all_goals simp [hostEvent, hr]

theorem hostEvent_tick_of_idle (h : s.run ≠ .booted) : hostEvent .tick s = .next s := by
  cases hr : s.run
  case booted => exact absurd hr h
  all_goals simp [hostEvent, hr]

/-- Settles O55: RUN decides which of the two runs the cycle. -/
theorem stepAndTickNeverBothRunACycle : Obligations.StepAndTickNeverBothRunACycle :=
  fun _ => ⟨fun h => ⟨hostEvent_step_of_booted h, hostEvent_tick_of_booted h⟩,
    fun h => ⟨hostEvent_step_of_idle h, hostEvent_tick_of_idle h⟩⟩

/-! ## The load interface -/

/-- The answers of the load interface: one for each store, the index inside it (R41). -/
inductive LoadAnswer (s : State) : HostWrite → State → Prop
  | reg {i : RegIdx} {v : Int} (h : RegExists s i) :
      LoadAnswer s (.reg i.val v) (s.setReg i (wrap8 v))
  | pc {v : Int} : LoadAnswer s (.pc v) (s.setPc (wrap8 v))
  | sp {v : Int} : LoadAnswer s (.sp v) (s.setSp (wrap8 v))
  | flag {i : FlagIdx} {b : Bool} :
      LoadAnswer s (.flag i.val b) (s.setFlags (setFlag s.flags i b))
  | ram {a : Nat} {v : Int} (h : a < s.cfg.ramSize) :
      LoadAnswer s (.ram a v) (s.setRam (Memory.write s.ram a (wrap8 v)))
  | rom {a : Nat} {v : Int} (h : a < s.cfg.romSize) :
      LoadAnswer s (.rom a v) (s.setRom (Memory.write s.rom a (wrap8 v)))

/-- The load interface answers a next state for an index inside the store, and no other. -/
theorem load_eq_next_iff {w : HostWrite} : s.load w = .next t ↔ LoadAnswer s w t := by
  constructor
  · intro h
    cases w with
    | reg i v =>
      simp only [State.load] at h
      split_ifs at h with hi hreg
      cases h
      exact .reg (i := ⟨i, hi⟩) hreg
    | pc v => cases h; exact .pc
    | sp v => cases h; exact .sp
    | flag i b =>
      simp only [State.load] at h
      split_ifs at h with hi
      cases h
      exact .flag (i := ⟨i, hi⟩)
    | ram a v =>
      simp only [State.load] at h
      split_ifs at h with ha
      cases h
      exact .ram ha
    | rom a v =>
      simp only [State.load] at h
      split_ifs at h with ha
      cases h
      exact .rom ha
  · intro h
    cases h with
    | reg h => simp [State.load, h]
    | flag => simp [State.load]
    | ram h => simp [State.load, h]
    | rom h => simp [State.load, h]
    | _ => rfl

/-- A host write is answered by the load interface of a machine that is not Booted (R41). -/
theorem hostEvent_write_eq_next_iff {w : HostWrite} :
    hostEvent (.write w) s = .next t ↔ s.run ≠ .booted ∧ LoadAnswer s w t := by
  rw [← load_eq_next_iff]
  cases hr : s.run <;> simp [hostEvent, hostWrite, hr]

/-! ## Every event -/

/-- The event runs a cycle: `Step` of a machine that is not Booted, a tick of one that is (R188,
R189). -/
def Drives (e : HostEvent) (s : State) : Prop :=
  e = .step ∧ s.run ≠ .booted ∨ e = .tick ∧ s.run = .booted

/-- The next state an event can answer. -/
inductive EventAnswer (s : State) : HostEvent → State → Prop
  | reset (hlegal : s.cfg.legal = true) : EventAnswer s .reset (State.resetWith s.cfg)
  | boot : EventAnswer s .boot s.boot
  | halt : EventAnswer s .halt s.halt
  | ignored {e : HostEvent} (he : e ≠ .reset) : EventAnswer s e s
  | cycle {e : HostEvent} {t : State} (hdrives : Drives e s) (hstep : step s = .next t) :
      EventAnswer s e t
  | write {w : HostWrite} {t : State} (hload : LoadAnswer s w t) : EventAnswer s (.write w) t

/-- An event answers nothing else. -/
theorem eventAnswer_of_hostEvent {e : HostEvent} (h : hostEvent e s = .next t) :
    EventAnswer s e t := by
  cases e with
  | reset =>
    by_cases hlegal : s.cfg.legal = true
    · obtain rfl : State.resetWith s.cfg = t :=
        Host.Outcome.next.inj ((construct_of_legal hlegal).symm.trans h)
      exact .reset hlegal
    · simp [hostEvent, construct, hlegal] at h
  | boot => cases h; exact .boot
  | halt => cases h; exact .halt
  | step =>
    by_cases hrun : s.run = .booted
    · rw [hostEvent_step_of_booted hrun] at h
      cases h
      exact .ignored nofun
    · exact .cycle (.inl ⟨rfl, hrun⟩) (hostEvent_step_of_idle hrun ▸ h)
  | tick =>
    by_cases hrun : s.run = .booted
    · exact .cycle (.inr ⟨rfl, hrun⟩) (hostEvent_tick_of_booted hrun ▸ h)
    · rw [hostEvent_tick_of_idle hrun] at h
      cases h
      exact .ignored nofun
  | write w => exact .write (hostEvent_write_eq_next_iff.1 h).2

/-- No host write changes FAULT or the configuration. -/
theorem LoadAnswer.fault_cfg {w : HostWrite} (h : LoadAnswer s w t) :
    t.fault = s.fault ∧ t.cfg = s.cfg := by
  cases h <;> exact ⟨rfl, rfl⟩

/-- No event changes the configuration. -/
theorem hostEvent_cfg {e : HostEvent} (h : hostEvent e s = .next t) : t.cfg = s.cfg := by
  cases eventAnswer_of_hostEvent h with
  | reset => rfl
  | boot => exact s.boot_cfg
  | halt => exact s.halt_cfg
  | ignored => rfl
  | cycle _ hstep => exact step_cfg hstep
  | write hload => exact hload.fault_cfg.2

/-! ## Runs -/

/-- A run goes on from the state its first event answers. -/
theorem runEvents_cons_of_next {e : HostEvent} {es : List HostEvent} (h : hostEvent e s = .next t) :
    runEvents (e :: es) s = runEvents es t := by
  rw [runEvents, h]

/-- What every event of a run keeps holds at its end. -/
theorem runEvents_keeps {P : State → Prop} {es : List HostEvent}
    (hkeeps : ∀ e ∈ es, ∀ s t, P s → hostEvent e s = .next t → P t) (hs : P s)
    (h : runEvents es s = .next t) : P t := by
  induction es generalizing s with
  | nil => cases h; exact hs
  | cons e es ih =>
    cases he : hostEvent e s with
    | next u =>
      rw [runEvents_cons_of_next he] at h
      exact ih (fun e' he' => hkeeps e' (List.mem_cons_of_mem e he'))
        (hkeeps e List.mem_cons_self s u hs he) h
    | fault r => simp [runEvents, he] at h
    | refused r => simp [runEvents, he] at h

/-- Ticks do nothing to a machine that is not Booted. -/
theorem runEvents_ticks_of_idle (k : Nat) (h : s.run ≠ .booted) :
    runEvents (List.replicate k .tick) s = .next s := by
  induction k with
  | zero => rfl
  | succ k ih => rw [List.replicate_succ, runEvents_cons_of_next (hostEvent_tick_of_idle h), ih]

end

/-! ## The obligations -/

/-- Settles O56: no event of the run changes the configuration, and `Reset` constructs it anew. -/
theorem resetEqualsConstructionAfterAnyRun : Obligations.ResetEqualsConstructionAfterAnyRun := by
  intro es s t hlegal hrun
  have hcfg : t.cfg = s.cfg := runEvents_keeps (P := fun u => u.cfg = s.cfg)
    (fun _ _ _ _ hu he => (hostEvent_cfg he).trans hu) rfl hrun
  have hreset : hostEvent .reset t = construct s.cfg := hcfg ▸ rfl
  exact ⟨hreset, hreset.trans (construct_of_legal hlegal)⟩

/-- Settles O59: the first tick runs the faulting cycle, which halts the machine, and the others
find it Halted. -/
theorem noTickRunsAfterAFault : Obligations.NoTickRunsAfterAFault := by
  intro s f k hlegal hbooted hfault
  have hstep := step_of_cycleFault_eq_some hlegal hfault
  have hhalted := State.takeFault_run_booted (f := f) (n := s.fetchSkip) hbooted
  refine ⟨_, hstep, hhalted, ?_⟩
  rw [List.replicate_succ, runEvents_cons_of_next ((hostEvent_tick_of_booted hbooted).trans hstep),
    runEvents_ticks_of_idle k (by simp [hhalted])]

/-- Apart from `Reset`, an event keeps FAULT or drives a cycle that records its fault there. -/
theorem fault_of_hostEvent {e : HostEvent} {s t : State} (he : e ≠ .reset)
    (h : hostEvent e s = .next t) :
    t.fault = s.fault ∨
      Drives e s ∧ ∃ f, cycleFault s = some f ∧ t.fault = ⟨f.kind, s.pc, f.space, f.value⟩ := by
  cases eventAnswer_of_hostEvent h with
  | reset => exact absurd rfl he
  | boot => exact .inl s.boot_fault
  | halt => exact .inl s.halt_fault
  | ignored => exact .inl rfl
  | write hload => exact .inl hload.fault_cfg.1
  | cycle hdrives hstep =>
    rcases step_cases hstep with ⟨f, hf, rfl⟩ | ⟨-, i, -, rfl⟩
    · exact .inr ⟨hdrives, f, hf, rfl⟩
    · exact .inl rfl

/-- A fault that is taken has a kind (R170). -/
theorem CycleFault.kind_ne_none (f : CycleFault) : f.kind ≠ .none := by
  cases f <;> exact nofun

/-- Settles O58: whatever an event writes to FAULT names a fault, and a run keeps that. -/
theorem onlyResetClearsTheFaultRegister : Obligations.OnlyResetClearsTheFaultRegister := by
  refine ⟨fun _ _ _ => fault_of_hostEvent, fun es s t hreset hs hrun => ?_⟩
  refine runEvents_keeps (P := fun u => u.fault.kind ≠ .none) (fun e he u v hu hev => ?_) hs hrun
  rcases fault_of_hostEvent (ne_of_mem_of_not_mem he hreset) hev with hsame | ⟨-, f, -, hf⟩
  · rwa [hsame]
  · rw [hf]
    exact f.kind_ne_none

/-! ### Reading back what the host wrote -/

/-- A written value reads back modulo 256 (R11). -/
theorem wrap8_toNat (v : Int) : ((wrap8 v).toNat : Int) = v % 256 := by
  rw [wrap8, BitVec.toNat_ofInt]
  omega

/-- After `x[i] <- wrap8(v)` the register reads `v` modulo 256 and every other register as
before. -/
theorem State.setReg_wrap8_spec (s : State) (i : RegIdx) (v : Int) :
    (((s.setReg i (wrap8 v)).reg i).toNat : Int) = v % 256 ∧
      SameRegsExcept i s (s.setReg i (wrap8 v)) :=
  ⟨by rw [State.setReg_reg, if_pos rfl, wrap8_toNat], s.setReg_frame i _⟩

/-- After `F[i] <- b` the flag reads `b` and every other flag as before. -/
theorem State.setFlag_spec (s : State) (i : FlagIdx) (b : Bool) :
    getFlag (s.setFlags (setFlag s.flags i b)).flags i = b ∧
      SameFlagsExcept [i] s (s.setFlags (setFlag s.flags i b)) := by
  refine ⟨by simp, fun j hj => ?_⟩
  rw [State.setFlags_flags, getFlag_setFlag, if_neg (List.ne_of_not_mem_cons hj)]

/-- After a write of `wrap8(v)` to byte `a` it reads `v` modulo 256 and every other byte as
before. -/
theorem Memory.read_write_wrap8 {m : Memory} (a : Nat) (v : Int) (hm : Memory.wf m = true) :
    ((Memory.read (Memory.write m a (wrap8 v)) a).toNat : Int) = v % 256 ∧
      ∀ b, b ≠ a → Memory.read (Memory.write m a (wrap8 v)) b = Memory.read m b := by
  simp +contextual [Memory.read_write _ _ _ hm, wrap8_toNat]

/-- The index of the write, if it has one, is inside the store it names (R41). -/
def HostWrite.InRange (c : Config) : HostWrite → Prop
  | .reg i _ => i < c.nregs
  | .flag i _ => i < 16
  | .ram a _ => a < c.ramSize
  | .rom a _ => a < c.romSize
  | .pc _ | .sp _ => True

/-- A write with an index outside its store answers no next state. -/
theorem inRange_of_hostEvent_write {s t : State} {w : HostWrite}
    (h : hostEvent (.write w) s = .next t) : w.InRange s.cfg := by
  cases (hostEvent_write_eq_next_iff.1 h).2 with
  | reg hi => exact hi
  | pc | sp => trivial
  | @flag i _ => exact i.isLt
  | ram ha => exact ha
  | rom ha => exact ha

/-- Settles O57: the load interface answers the state with the one field written; in that field the
value reads back and the rest is as before, and every other field is the old one. -/
theorem hostWritesReadBackWhileNotBooted : Obligations.HostWritesReadBackWhileNotBooted := by
  intro s hram hrom _
  refine ⟨fun hrun w t h => (hostEvent_write_eq_next_iff.1 h).1 hrun, fun hidle => ?_⟩
  have answers {w : HostWrite} {t : State} (h : LoadAnswer s w t) :
      hostEvent (.write w) s = .next t := hostEvent_write_eq_next_iff.2 ⟨hidle, h⟩
  have hregs : SameRegs s s := SameRegs.rfl s
  have hflags : SameFlags s s := SameFlags.rfl s
  have hramSame : SameRam s s := SameRam.rfl s
  have hcontrol : SameControl s s := SameControl.rfl s
  have outside {w : HostWrite} {t : State} (hout : ¬ w.InRange s.cfg) :
      hostEvent (.write w) s ≠ .next t := fun h => hout (inRange_of_hostEvent_write h)
  refine ⟨fun i v hi => ?_, fun _ _ _ hout => outside (Nat.not_lt.2 hout),
    fun v => ⟨_, answers .pc, wrap8_toNat v, hregs, hflags, rfl, hramSame, hcontrol⟩,
    fun v => ⟨_, answers .sp, wrap8_toNat v, hregs, hflags, rfl, hramSame, hcontrol⟩,
    fun i b => ?_, fun _ _ _ hout => outside (Nat.not_lt.2 hout), fun a v ha => ?_,
    fun a v ha => ?_, fun _ _ _ hout => outside (Nat.not_lt.2 hout),
    fun _ _ _ hout => outside (Nat.not_lt.2 hout)⟩
  · obtain ⟨hread, hrest⟩ := s.setReg_wrap8_spec i v
    exact ⟨_, answers (.reg hi), hread, hrest, hflags, rfl, rfl, hramSame, hcontrol⟩
  · obtain ⟨hread, hrest⟩ := s.setFlag_spec i b
    exact ⟨_, answers .flag, hread, hrest, hregs, rfl, rfl, hramSame, hcontrol⟩
  · obtain ⟨hread, hrest⟩ := Memory.read_write_wrap8 a v hram
    exact ⟨_, answers (.ram ha), hread, hrest, hregs, hflags, rfl, rfl, hcontrol⟩
  · obtain ⟨hread, hrest⟩ := Memory.read_write_wrap8 a v hrom
    exact ⟨_, answers (.rom ha), hread, hrest, hregs, hflags, rfl, rfl, hramSame, rfl, rfl, rfl⟩

end Sys2Proof.Machine

/-! PROOF. The invariant (10_state.md, 60_exceptions.md section 1): reset establishes it, and a
cycle and every event of the host keep it. -/

namespace Sys2Proof.Machine

/-! ## The faults that can happen -/

/-- A chip with configuration `c` can raise `f`: the opcode has no row, or the index or address is
outside what the chip has (R170, R172, R173). -/
def CycleFault.Possible (c : Config) : CycleFault → Prop
  | .illegal op => Opcode.ofByte op = none
  | .imem a => imemSize c ≤ a.toNat
  | .reg i => c.nregs ≤ i.val
  | .bit b => 8 ≤ b.val
  | .ram a => c.ramSize ≤ a.toNat

/-- What a possible fault records is a possible FAULT. -/
theorem CycleFault.Possible.possible {c : Config} {f : CycleFault} (h : f.Possible c) (a0 : Byte) :
    FaultReg.possible c ⟨f.kind, a0, f.space, f.value⟩ = true := by
  have hindex (i : Fin 16) : (BitVec.ofNat 8 i.val).toNat = i.val :=
    BitVec.toNat_ofNat _ _ ▸ Nat.mod_eq_of_lt (by omega)
  cases f with
  | illegal op => exact decide_eq_true h
  | imem a => exact decide_eq_true h
  | ram a => exact decide_eq_true h
  | reg i => exact decide_eq_true ⟨(hindex i).symm ▸ h, (hindex i).symm ▸ i.isLt⟩
  | bit b => exact decide_eq_true ⟨(hindex b).symm ▸ h, (hindex b).symm ▸ b.isLt⟩

section
variable {s : State}

/-- A fault of the fetch is an illegal opcode or an address outside the instruction space. -/
theorem possible_of_fetch {f : CycleFault} (h : s.fetch = .error f) : f.Possible s.cfg := by
  have imem {n : Nat} (hn : s.byteAtPc n = .error f) : f.Possible s.cfg := by
    obtain ⟨hout, rfl⟩ := State.ifetch_eq_error_iff.1 hn
    exact hout
  cases State.fetch_eq_iff.1 h with
  | opcodeFails h0 => exact imem h0
  | noRow _ hb => exact hb
  | secondFails _ _ h1 => exact imem h1
  | thirdFails _ _ _ h2 => exact imem h2

/-- A check raises nothing but the fault it was made for. -/
theorem possible_of_check {c : Config} {p : Prop} [Decidable p] {e f : CycleFault}
    (he : ¬ p → e.Possible c) (h : (if p then none else some e) = some f) : f.Possible c := by
  split_ifs at h with hp
  cases h
  exact he hp

/-- A fault of the execution is an operand or a data address out of range. -/
theorem possible_of_execFault {i : Instr} {f : CycleFault} (h : execFault s i = some f) :
    f.Possible s.cfg := by
  simp only [execFault_eq, Option.orElse_eq_orElse, Option.orElse_eq_or, Option.or_eq_some_iff,
    Option.bind_eq_some_iff, Option.or_none] at h
  rcases h with ⟨d, -, hd⟩ | ⟨-, ⟨r, -, hr⟩ | ⟨-, ⟨b, -, hb⟩ | ⟨-, a, -, ha⟩⟩⟩
  · exact possible_of_check Nat.not_lt.1 hd
  · exact possible_of_check Nat.not_lt.1 hr
  · exact possible_of_check Nat.not_lt.1 hb
  · exact possible_of_check Nat.not_lt.1 ha

/-- A fault of a cycle is one that can happen. -/
theorem possible_of_cycleFault {f : CycleFault} (h : cycleFault s = some f) : f.Possible s.cfg := by
  unfold cycleFault at h
  split at h
  next hfetch => cases h; exact possible_of_fetch hfetch
  next hfetch => exact possible_of_execFault h

/-! ## Cycles -/

/-- The destination is the register in the high nibble (R91). -/
theorem hiReg_of_destReg {i : Instr} {d : RegIdx} (h : destReg i = some d) : i.hiReg = some d := by
  cases i with
  | add | adc | sub | sbc | and | asr | bld | ldi | mov | ld | pop => exact h
  | _ => cases h

/-- Taking a possible fault keeps the invariant: FAULT alone of its fields is written. -/
theorem State.Inv.takeFault {f : CycleFault} (h : s.Inv) (hf : f.Possible s.cfg) (n : Byte) :
    (s.takeFault f n).Inv :=
  { h with fault_possible := hf.possible s.pc }

/-- A passing instruction keeps the invariant: it stores inside RAM and writes an existing
register. -/
theorem State.Inv.effect {i : Instr} (h : s.Inv) (hpasses : Passes s i) : (s.effect i).Inv := by
  have hram : Memory.wf (s.effect i).ram = true ∧
      Memory.within s.cfg.ramSize (s.effect i).ram = true := by
    cases hstore : storeAddr s i with
    | none =>
      rw [State.effect_ram_of_none hstore]
      exact ⟨h.ram_wf, h.ram_within⟩
    | some a =>
      rw [State.effect_ram_of_some hstore]
      exact ⟨Memory.write_wf _ _ h.ram_wf,
        Memory.write_within _ (hpasses.addr (by simp [hstore])) h.ram_within⟩
  have hunused (j : RegIdx) (hj : s.cfg.nregs ≤ j.val) : (s.effect i).reg j = 0#8 := by
    have hne : destReg i ≠ some j := fun hd =>
      Nat.not_lt.2 hj (hpasses.hiReg (hiReg_of_destReg hd))
    rw [State.effect_reg_of_ne hne, h.unused_regs j hj]
  exact { h with ram_wf := hram.1, ram_within := hram.2, unused_regs := hunused }

end

/-- Settles O12: a fault of the cycle is possible, and an effect keeps the invariant. -/
theorem everyCycleKeepsInv : Obligations.EveryCycleKeepsInv := by
  intro s t hinv h
  rcases step_cases h with ⟨f, hf, rfl⟩ | ⟨-, i, hnone, rfl⟩
  · exact hinv.takeFault (possible_of_cycleFault hf) _
  · exact hinv.effect (execFault_eq_none_iff.1 hnone)

/-! ## Reset and the host -/

/-- The reset state of a legal chip meets the invariant (R38). -/
theorem State.resetWith_inv {c : Config} (h : c.legal = true) : (State.resetWith c).Inv where
  cfg_legal := h
  ram_wf := rfl
  ram_within := rfl
  rom_wf := rfl
  rom_within := rfl
  fault_possible := rfl
  unused_regs i _ := State.resetWith_reg c i

/-- Settles O13: the reference configuration is legal. -/
theorem resetMeetsInv : Obligations.ResetMeetsInv :=
  ⟨fun _ => State.resetWith_inv, State.resetWith_inv (by decide)⟩

/-- A host write keeps the invariant: it stores inside its memory or writes an existing
register. -/
theorem State.Inv.load {s t : State} {w : HostWrite} (h : s.Inv) (hload : LoadAnswer s w t) :
    t.Inv := by
  cases hload with
  | @reg i v hi =>
    refine { h with unused_regs := fun j hj => ?_ }
    have hne : j ≠ i := fun heq => Nat.not_lt.2 hj (heq ▸ hi)
    exact (s.setReg_frame i _ j hne).trans (h.unused_regs j hj)
  | ram ha =>
    exact { h with
      ram_wf := Memory.write_wf _ _ h.ram_wf, ram_within := Memory.write_within _ ha h.ram_within }
  | rom ha =>
    exact { h with
      rom_wf := Memory.write_wf _ _ h.rom_wf, rom_within := Memory.write_within _ ha h.rom_within }
  | _ => exact { h with }

/-- Every event keeps the invariant. -/
theorem State.Inv.hostEvent {s t : State} {e : HostEvent} (h : s.Inv)
    (hevent : hostEvent e s = .next t) : t.Inv := by
  cases eventAnswer_of_hostEvent hevent with
  | reset hlegal => exact State.resetWith_inv hlegal
  | boot => rw [State.boot_eq]; exact { h with }
  | halt => rw [State.halt_eq]; exact { h with }
  | ignored => exact h
  | cycle _ hstep => exact everyCycleKeepsInv s t h hstep
  | write hload => exact h.load hload

/-- Settles O14: every event of the run keeps the invariant. -/
theorem everyRunOfHostEventsKeepsInv : Obligations.EveryRunOfHostEventsKeepsInv :=
  fun _ _ _ hinv => runEvents_keeps (fun _ _ _ _ h => h.hostEvent) hinv

end Sys2Proof.Machine

/-! PROOF. The bit formulas of R118: the carry out of each bit position is the majority of the
operands' bits and the inverted bit of the sum, overflow is a matter of the sign bits, and a
subtraction is the addition of the complement with the borrow inverted. -/

namespace Sys2Proof.Machine

/-! ## Addition -/

section
variable (a b : Byte) (cin : Bool)

/-- The sum as a machine addition. -/
theorem addResult_value_eq :
    (addResult a b cin).value = a + b + BitVec.setWidth 8 (BitVec.ofBool cin) := by
  apply BitVec.eq_of_toNat_eq
  rw [addResult_value_toNat]
  cases cin <;> simp [BitVec.toNat_add]

/-- The carry out of bit `n` is the majority of the operands' bits and the inverted bit of the
sum. -/
theorem carry_eq_getLsbD {n : Nat} (hn : n < 8) :
    BitVec.carry (n + 1) a b cin =
      ((a &&& b) ||| (a &&& ~~~(addResult a b cin).value) |||
        (b &&& ~~~(addResult a b cin).value)).getLsbD n := by
  simp only [addResult_value_eq, BitVec.getLsbD_or, BitVec.getLsbD_and, BitVec.getLsbD_not,
    BitVec.getLsbD_add_add_bool hn, BitVec.carry_succ, hn, decide_true, Bool.true_and]
  cases a.getLsbD n <;> cases b.getLsbD n <;> cases BitVec.carry n a b cin <;> rfl

/-- Carry is the carry out of bit 7. -/
theorem addResult_c_eq_carry : (addResult a b cin).c = BitVec.carry 8 a b cin := by
  rw [addResult_c, BitVec.carry, decide_eq_decide]
  omega

/-- Half Carry is the carry out of bit 3. -/
theorem addResult_h_eq_carry : (addResult a b cin).h = BitVec.carry 4 a b cin := by
  rw [addResult_h, BitVec.carry, decide_eq_decide]
  omega

/-- The high bit of a byte tells whether it is at least 128. -/
theorem getLsbD_seven_eq_decide (v : Byte) : v.getLsbD 7 = decide (128 ≤ v.toNat) :=
  BitVec.msb_eq_decide v

/-- A sum overflows exactly if both operands have one sign and the result the other. -/
theorem addResult_v_iff :
    (addResult a b cin).v = true ↔
      a.getLsbD 7 = b.getLsbD 7 ∧ (addResult a b cin).value.getLsbD 7 ≠ a.getLsbD 7 := by
  have hcin := cin.toNat_le
  simp only [addResult_v, getLsbD_seven_eq_decide, addResult_value_toNat, decide_eq_true_eq, ne_eq,
    decide_eq_decide, BitVec.toInt_eq_toNat_cond]
  split_ifs <;> omega

/-! ## Subtraction -/

/-- The complement as a number. -/
theorem complement_toNat : (~~~b).toNat = 255 - b.toNat := BitVec.toNat_not

/-- The inverted borrow as a number. -/
theorem toNat_not : (!cin).toNat = 1 - cin.toNat := by
  cases cin <;> rfl

/-- The difference is the sum with the complement, the borrow inverted. -/
theorem subResult_value_eq_addResult :
    (subResult a b cin).value = (addResult a (~~~b) (!cin)).value := by
  have hcin := cin.toNat_le
  have hsub := subResult_value_toNat a b cin
  apply BitVec.eq_of_toNat_eq
  rw [addResult_value_toNat, complement_toNat, toNat_not]
  omega

theorem subResult_c_eq_addResult : (subResult a b cin).c = !(addResult a (~~~b) (!cin)).c := by
  have hcin := cin.toNat_le
  rw [subResult_c, addResult_c, complement_toNat, toNat_not, ← decide_not, decide_eq_decide]
  omega

theorem subResult_h_eq_addResult : (subResult a b cin).h = !(addResult a (~~~b) (!cin)).h := by
  have hcin := cin.toNat_le
  rw [subResult_h, addResult_h, complement_toNat, toNat_not, ← decide_not, decide_eq_decide]
  omega

theorem subResult_v_eq_addResult : (subResult a b cin).v = (addResult a (~~~b) (!cin)).v := by
  have hneg : (~~~b).toInt = -b.toInt - 1 := by
    simp only [BitVec.toInt_eq_toNat_cond, complement_toNat]
    split_ifs <;> omega
  have hcin := cin.toNat_le
  rw [subResult_v, addResult_v, hneg, toNat_not, decide_eq_decide]
  omega

/-- The borrow formula is the inverted carry formula of the sum with the complement. -/
theorem getLsbD_borrow_formula (R : Byte) {n : Nat} (hn : n < 8) :
    ((~~~a &&& b) ||| (b &&& R) ||| (R &&& ~~~a)).getLsbD n =
      !((a &&& ~~~b) ||| (a &&& ~~~R) ||| (~~~b &&& ~~~R)).getLsbD n := by
  simp only [BitVec.getLsbD_or, BitVec.getLsbD_and, BitVec.getLsbD_not, hn, decide_true,
    Bool.true_and]
  cases a.getLsbD n <;> cases b.getLsbD n <;> cases R.getLsbD n <;> rfl

end

/-- Settles O32: the flags of a sum are carries, and those of a difference the inverted carries of a
sum. -/
theorem bitFormulasGiveCarryOverflowHalfCarry :
    Obligations.BitFormulasGiveCarryOverflowHalfCarry := by
  intro a b cin
  refine ⟨⟨?_, ?_, addResult_v_iff a b cin⟩, ?_, ?_, ?_⟩
  · rw [addResult_c_eq_carry, carry_eq_getLsbD a b cin (by decide)]
  · rw [addResult_h_eq_carry, carry_eq_getLsbD a b cin (by decide)]
  · rw [subResult_c_eq_addResult, addResult_c_eq_carry, carry_eq_getLsbD _ _ _ (by decide),
      getLsbD_borrow_formula _ _ _ (by decide), subResult_value_eq_addResult]
  · rw [subResult_h_eq_addResult, addResult_h_eq_carry, carry_eq_getLsbD _ _ _ (by decide),
      getLsbD_borrow_formula _ _ _ (by decide), subResult_value_eq_addResult]
  · have hnot : (~~~b).getLsbD 7 = !b.getLsbD 7 := by simp
    rw [subResult_v_eq_addResult, addResult_v_iff, subResult_value_eq_addResult, hnot, Bool.eq_not]

end Sys2Proof.Machine

/-! PROOF. Two instructions in a row that undo or hand on what the first one did: BST and BLD of
one bit, CALL and RET, PUSH and POP (95_test_vectors.md sections 2.2 and 2.3, 43_data_stack.md
section 2). -/

namespace Sys2Proof.Machine

/-- Writing a bit of a byte with the value it has changes nothing. -/
theorem withBit_bitOf {v : Byte} {b : BitIdx} (hb : b.val < 8) : withBit v b (bitOf v b) = v := by
  apply BitVec.eq_of_getLsbD_eq
  intro j hj
  rw [getLsbD_withBit hb hj]
  by_cases h : j = b.val
  · rw [if_pos h, bitOf, h]
  · rw [if_neg h]

/-- Settles O37: BST writes the Transfer flag with the bit, and BLD writes the bit back. -/
theorem bstThenBldRestoresTheRegister : Obligations.BstThenBldRestoresTheRegister := by
  intro d b s hd hb
  obtain ⟨hflag, hrest, -, hregs, -⟩ := s.writeFlag_spec Flag.transfer.index (bitOf (s.reg d) b)
  refine ⟨_, _, exec_bst_eq_writeFlag hd hb, exec_bld_eq_writeBack hd hb, fun j => ?_,
    add_assoc s.pc 2 2, hrest⟩
  by_cases hj : j = d
  · rw [hj, State.writeBack_reg, State.flag, hflag, hregs d, withBit_bitOf hb]
  · exact State.setReg_frame _ d _ j hj

/-- Settles O45: the slot that CALL writes is the one that RET reads. -/
theorem callThenRetContinuesAfterTheCall : Obligations.CallThenRetContinuesAfterTheCall := by
  intro k s hwf hslot
  obtain ⟨hread, hrest⟩ := State.setRam_write_frame (s.sp - 1).toNat (s.pc + 2) hwf
  exact ⟨_, _, exec_call_of_lt hslot, rfl, exec_ret_of_lt hslot, hread, sub_add_cancel s.sp 1,
    hread, hrest, fun _ => rfl, fun _ => rfl⟩

/-- Settles O52: the slot that PUSH writes is the one that POP reads. -/
theorem pushThenPopCopiesTheRegister : Obligations.PushThenPopCopiesTheRegister := by
  intro a b s hwf ha hb hslot
  obtain ⟨hread, hrest⟩ := State.setRam_write_frame (s.sp - 1).toNat (s.reg a) hwf
  refine ⟨_, _, exec_push_of_lt ha hslot, exec_pop_of_lt hb hslot, ?_, fun j hj => ?_,
    sub_add_cancel s.sp 1, add_assoc s.pc 2 2, hread, hrest, fun _ => rfl⟩
  · rw [State.advance_reg, State.setReg_reg, if_pos rfl]
    exact hread
  · exact State.setReg_frame _ b _ j hj

end Sys2Proof.Machine
